-- ==== Sys2Proof/Word.lean ====
section
/-! DEFINITION. The word types of BDC and the values of the command word's fields
(spec/30_encoding.md rules R93-R100). -/

namespace Sys2Proof

/-- One byte of sample memory (20_memory.md R60). -/
abbrev Byte := BitVec 8

/-- A 16-bit value: HEIGHT, WIDTH, COUNT (R32, R33) and a 16-bit sample. -/
abbrev Half := BitVec 16

/-- A 32-bit word: a register as the host reads and writes it (R23). -/
abbrev Word := BitVec 32

/-- Colour-filter-array pattern, CMD.PAT (R93). -/
inductive Pattern
  | grbg
  | gbrg
  deriving DecidableEq, Repr

/-- Sample width, CMD.SW 0 and 1 (R94); SW 2 and 3 are illegal words. -/
inductive SampleWidth
  | u8
  | u16
  deriving DecidableEq, Repr

/-- Green rounding policy, CMD.RND (R96): round half away from zero, or toward zero. -/
inductive Rounding
  | half
  | trunc
  deriving DecidableEq, Repr

/-- Output form of DEMOSAIC, CMD.COLOR (R97). -/
inductive OutputForm
  | gray
  | color
  deriving DecidableEq, Repr

/-- Luminance input layout, CMD.LCH (R100): 1, 3 or 4 channels, or the unsupported code 3. -/
inductive ChannelLayout
  | one
  | three
  | four
  | unsupported
  deriving DecidableEq, Repr

/-- Upsampling order that an ALG value selects (R98, R160). -/
inductive Order
  | nearest
  | linear
  | quadratic
  | cubic
  deriving DecidableEq, Repr

/-- The fields every command word carries beside OP (R91). A field its operation does not use (R95)
is kept, so that no bit of a word is lost. -/
structure CmdFields where
  pat   : Pattern
  sw    : SampleWidth
  rnd   : Rounding
  out   : OutputForm
  alg   : BitVec 3
  batch : Bool
  lch   : ChannelLayout
  deriving DecidableEq, Repr

end Sys2Proof
end

