-- ==== Sys2Proof/Syntax.lean ====
section
/-! DEFINITION. The commands of BDC: one constructor for each row of spec/opcode_table.json. -/

namespace Sys2Proof

/-- A command (30_encoding.md R92): the operation and its fields. The other operands are registers (R102). -/
inductive Instr
  /-- OP 0: the whole pipeline (44_demosaic_batch.md R212). -/
  | demosaic (f : CmdFields)
  /-- OP 1: Channel Splitter (40_splitter.md R122). -/
  | split (f : CmdFields)
  /-- OP 2: Green Channel Merger (41_green_merge.md R143). -/
  | gmerge (f : CmdFields)
  /-- OP 3: Upsampler (42_upsampler.md R168). -/
  | upsample (f : CmdFields)
  /-- OP 4: Luminance Reducer (43_luminance.md R194). -/
  | luma (f : CmdFields)
  deriving DecidableEq, Repr

end Sys2Proof
end

