-- ==== Sys2Proof/WellFormed.lean ====
section
/-! DEFINITION. Which commands are legal as words (spec/30_encoding.md R101, R106). -/

namespace Sys2Proof

/-- The one illegal combination the fields can still express is LUMA with LCH = 3 (R100, R101); an
illegal OP, SW or RSV has no term of `Instr`. -/
def Instr.wellFormed : Instr → Bool
  | .demosaic _ => true
  | .split _    => true
  | .gmerge _   => true
  | .upsample _ => true
  | .luma f     => f.lch != .unsupported

end Sys2Proof
end

