-- ==== Sys2Proof/Decode.lean ====
section
/-! DEFINITION. The decoder of the command word (spec/30_encoding.md R91-R101, R106) and, after it, the
encoder (R103). -/

namespace Sys2Proof

/-- Why a word is no command (R101), in the order R106 checks. -/
inductive DecodeError
  /-- OP in 5..15. -/
  | illegalOp
  /-- A 1 among bits [31:15]. -/
  | reserved
  /-- SW is 2 or 3. -/
  | width
  /-- LUMA with LCH = 3. -/
  | lumaShape
  deriving DecidableEq, Repr

/-- `v[hi:lo]`: bits hi down to lo as an unsigned number (R7). -/
def bitField (w : Word) (hi lo : Nat) : Nat := w.toNat / 2 ^ lo % 2 ^ (hi + 1 - lo)

/-- PAT values (R93). -/
def patternOf (n : Nat) : Pattern := if n = 0 then .grbg else .gbrg

/-- SW values (R94). -/
def sampleWidthOf (n : Nat) : Option SampleWidth :=
  if n = 0 then some .u8 else if n = 1 then some .u16 else none

/-- RND values (R96). -/
def roundingOf (n : Nat) : Rounding := if n = 0 then .half else .trunc

/-- COLOR values (R97). -/
def outputFormOf (n : Nat) : OutputForm := if n = 1 then .color else .gray

/-- LCH values (R100). -/
def channelLayoutOf (n : Nat) : ChannelLayout :=
  if n = 0 then .one else if n = 1 then .three else if n = 2 then .four else .unsupported

/-- The fields of a word whose SW is legal (R91). -/
def fieldsOf (w : Word) (sw : SampleWidth) : CmdFields :=
  { pat   := patternOf (bitField w 4 4)
    sw    := sw
    rnd   := roundingOf (bitField w 7 7)
    out   := outputFormOf (bitField w 8 8)
    alg   := BitVec.ofNat 3 (bitField w 11 9)
    batch := bitField w 12 12 == 1
    lch   := channelLayoutOf (bitField w 14 13) }

/-- The operation a legal OP names (R92); none for OP in 5..15. -/
def operationOf (op : Nat) (f : CmdFields) : Option Instr :=
  if op = 0 then some (.demosaic f)
  else if op = 1 then some (.split f)
  else if op = 2 then some (.gmerge f)
  else if op = 3 then some (.upsample f)
  else if op = 4 then some (.luma f)
  else none

/-- The decoder, total on every 32-bit word (R106). -/
def decode (w : Word) : Except DecodeError Instr :=
  if 4 < bitField w 3 0 then .error .illegalOp
  else if bitField w 31 15 ≠ 0 then .error .reserved
  else
    match sampleWidthOf (bitField w 6 5) with
    | none => .error .width
    | some sw =>
      match operationOf (bitField w 3 0) (fieldsOf w sw) with
      | none => .error .illegalOp
      | some i => if i.wellFormed then .ok i else .error .lumaShape

/-- OP of a command (R92). -/
def Instr.opcode : Instr → Nat
  | .demosaic _ => 0
  | .split _    => 1
  | .gmerge _   => 2
  | .upsample _ => 3
  | .luma _     => 4

/-- The fields of a command beside OP. -/
def Instr.fields : Instr → CmdFields
  | .demosaic f => f
  | .split f    => f
  | .gmerge f   => f
  | .upsample f => f
  | .luma f     => f

/-- PAT as assembled (R103). -/
def Pattern.code : Pattern → Nat
  | .grbg => 0
  | .gbrg => 1

/-- SW as assembled (R103). -/
def SampleWidth.code : SampleWidth → Nat
  | .u8  => 0
  | .u16 => 1

/-- RND as assembled (R103). -/
def Rounding.code : Rounding → Nat
  | .half  => 0
  | .trunc => 1

/-- COLOR as assembled (R103). -/
def OutputForm.code : OutputForm → Nat
  | .gray  => 0
  | .color => 1

/-- LCH as assembled (R100, R103). -/
def ChannelLayout.code : ChannelLayout → Nat
  | .one         => 0
  | .three       => 1
  | .four        => 2
  | .unsupported => 3

/-- The bits of a command word above OP (R103). -/
def CmdFields.bits (f : CmdFields) : Nat :=
  f.pat.code * 2 ^ 4 + f.sw.code * 2 ^ 5 + f.rnd.code * 2 ^ 7 + f.out.code * 2 ^ 8
    + f.alg.toNat * 2 ^ 9 + f.batch.toNat * 2 ^ 12 + f.lch.code * 2 ^ 13

/-- The assembled word: `OP | PAT<<4 | SW<<5 | RND<<7 | COLOR<<8 | ALG<<9 | BATCH<<12 | LCH<<13` (R103). -/
def encode (i : Instr) : Word := BitVec.ofNat 32 (i.opcode + i.fields.bits)

/-- The command the decoder reads from a table row's word: one 32-bit word, bits above `nbits` zero (R90). -/
def decodeTableWord (nbits w : Nat) : Option Instr :=
  match decode (BitVec.ofNat 32 (w % 2 ^ nbits)) with
  | .ok i => some i
  | .error _ => none

end Sys2Proof
end

