-- ==== Sys2Proof/Config.lean ====
section
/-! DEFINITION. The fixed parameters of BDC (spec/00_scope.md R6) and the values the spec leaves open
(spec/93_implementation_defined.md U1, U2, U3). -/

namespace Sys2Proof.Config

/-- VERSION reads this in every state (10_state.md R24). -/
def version : Word := 0x00000001#32

/-- Size in bytes of sample memory, 2 ^ ADDR_W with ADDR_W = 32 (R6, R60). -/
abbrev addrSpace : Nat := 2 ^ 32

/-- What a byte of sample memory holds before anything has written it: any value, one for each
address (R280, U3). DESIGN CHOICE, safe: notes/assumptions/3.md. -/
opaque powerUpByte : Nat → Byte

/-- The stream of bytes drawn freely: host reads the spec gives no value (R75 c, U1) and destination
bytes after an aborting reset (R281, U2). DESIGN CHOICE, safe: notes/assumptions/4.md. -/
opaque freeByte : Nat → Byte

end Sys2Proof.Config
end

