-- ==== Sys2Proof/Machine/State.lean ====
section
/-! DEFINITION. The state of BDC and of the two agents that act on it (spec/10_state.md, 20_memory.md,
70_reset_and_hazards.md), the reasons a step stops, and the state after reset. -/

namespace Sys2Proof.Machine

/-- The error codes of a failed START (60_exceptions.md R242-R249). -/
inductive ErrCode
  | illegalOp
  | reserved
  | width
  | empty
  | shape
  | align
  | range
  | overlap
  deriving DecidableEq, Repr

/-- The byte interval [lo, hi) of sample memory (R66). -/
structure Region where
  lo : Nat
  hi : Nat
  deriving DecidableEq, Repr

/-- Who moves in a step: one host statement (R104), the engine's completion step (R215), or the reset
input, which is asserted or released (R280). -/
inductive Turn
  | host
  | engine
  | reset
  | release
  deriving DecidableEq, Repr

/-- The size of a host access to the register window; only `word` is supported (R36). -/
inductive BusSize
  | byte
  | half
  | word
  deriving DecidableEq, Repr

/-- A statement of a host program (30_encoding.md R104). A register is its byte offset, a temporary or a
list is a number that stands for its name, a label is the index of the statement it marks. -/
inductive HostStmt
  /-- `WR REG, v`. -/
  | wr (size : BusSize) (offset : Nat) (v : Word)
  /-- `RD REG -> t`. -/
  | rd (size : BusSize) (offset : Nat) (t : Nat)
  /-- `MW8 a, b0 b1 ...`. -/
  | mw8 (a : Word) (bs : List Byte)
  /-- `MW16 a, v0 v1 ...`. -/
  | mw16 (a : Word) (vs : List Half)
  /-- `MR8 a, n -> L`. -/
  | mr8 (a : Word) (n : Nat) (l : Nat)
  /-- `MR16 a, n -> L`. -/
  | mr16 (a : Word) (n : Nat) (l : Nat)
  /-- `BNZ t, m, Lname`. -/
  | bnz (t : Nat) (m : Word) (target : Nat)
  /-- `BZ t, m, Lname`. -/
  | bz (t : Nat) (m : Word) (target : Nat)
  /-- `HALT`. -/
  | halt
  deriving DecidableEq, Repr

/-- Every piece of state of BDC (R23-R41), of sample memory (R60), of the host that runs a program (R104),
and of the interleaving of the agents. Plain data. -/
structure State where
  /-- CTRL.IRQ_EN (R26). -/
  irqEn    : Bool
  /-- STATUS.BUSY (R27). -/
  busy     : Bool
  /-- STATUS.DONE (R28). -/
  done     : Bool
  /-- STATUS.ERR (R29). -/
  err      : Bool
  /-- STATUS.WARN (R30). -/
  warn     : Bool
  /-- STATUS.ERRCODE (R29). -/
  errCode  : BitVec 4
  /-- STATUS.WARNCODE (R30). -/
  warnCode : BitVec 4
  /-- CMD, all 32 bits (R31). -/
  cmd      : Word
  /-- HEIGHT[15:0] (R32). -/
  height   : Half
  /-- WIDTH[15:0] (R32). -/
  width    : Half
  /-- COUNT[15:0] (R33). -/
  count    : Half
  /-- SRC_BASE (R34). -/
  srcBase  : Word
  /-- DST_BASE (R34). -/
  dstBase  : Word
  /-- The reset input is asserted (R280). -/
  resetHeld : Bool
  /-- Sample memory (R60): the bytes written so far, addresses strictly rising (`Memory.wf`). -/
  mem      : List Host.Cell
  /-- The plain memory the platform backs (R65, D36). -/
  ram      : List Region
  /-- Destination of the last completed command while the host has not read DONE = 1 for it (R75 b). -/
  fresh    : List Region
  /-- Destinations of earlier completed commands whose DONE = 1 the host never read (R75 b). -/
  stale    : List Region
  /-- The model's own counter of free values drawn (log 4). -/
  draws    : Nat
  /-- The model's own list of the agents' next turns (log 2). -/
  sched    : List Turn
  /-- The host program (R104). -/
  prog     : List HostStmt
  /-- Index of the host's next statement (R104). -/
  hostPc   : Nat
  /-- Host temporaries (R104). -/
  temps    : List (Nat × Word)
  /-- Host lists (R104). -/
  lists    : List (Nat × List Half)
  deriving DecidableEq, Repr

/-- The machine stops. -/
inductive Fault
  /-- A host memory access (MW8, MW16, MR8, MR16) reaches past address 2^32 - 1, which does not exist
  (R60). Safe. -/
  | outsideAddressSpace
  deriving DecidableEq, Repr

/-- The model has no step. -/
inductive Refusal
  /-- An instruction with no meaning yet; raised by no arm of `exec`. Safe. -/
  | notModelled (mnemonic : String)
  /-- A host access to the register window that is not a 32-bit access at an aligned offset 0x00..0xFC
  (R36, U4). Safe. -/
  | registerAccess
  /-- The range of a command that passes its checks, or a host memory access, reaches memory the platform
  does not back (R65, U5); a command is refused at its START. Safe. -/
  | unbackedMemory
  /-- A host write to a byte of the source or destination range while BUSY = 1 (R291 b, U6). It errs
  toward proving if a real host breaks the duty: unsafe there, safe for a host that keeps it. -/
  | hostWriteWhileBusy
  /-- A state with BUSY = 1 whose registers do not validate; no run reaches one (R37, R240). Safe. -/
  | invalidInFlight
  deriving DecidableEq, Repr

/-- The machine right after reset, the reset input released (R280, R41); the fields that are not BDC's are logged in
notes/assumptions 2, 4, 5, 7, 10 and 14. -/
def State.reset : State :=
  { irqEn := false, busy := false, done := false, err := false, warn := false
    errCode := 0#4, warnCode := 0#4
    cmd := 0#32, height := 0#16, width := 0#16, count := 0#16
    srcBase := 0#32, dstBase := 0#32
    resetHeld := false
    mem := []
    ram := [⟨0, Config.addrSpace⟩]
    fresh := [], stale := []
    draws := 0, sched := []
    prog := [], hostPc := 0, temps := [], lists := [] }

end Sys2Proof.Machine
end

