-- ==== Sys2Proof/Machine/Ops.lean ====
section
/-! DEFINITION. The named operations over sample memory (spec/20_memory.md R61), byte regions (R65, R66)
and the STATUS register: recording an error, its return, acceptance, completion
(60_exceptions.md R251-R253, 44_demosaic_batch.md R215) and reset (70_reset_and_hazards.md R280, R281). -/

namespace Sys2Proof.Machine

/-! ## Sparse data by key -/

/-- Set `k` to `v`, keeping the keys strictly rising. -/
def insertKey {α : Type} (k : Nat) (v : α) : List (Nat × α) → List (Nat × α)
  | [] => [(k, v)]
  | (k', v') :: rest =>
    if k < k' then (k, v) :: (k', v') :: rest
    else if k = k' then (k, v) :: rest
    else (k', v') :: insertKey k v rest

/-- What is listed under `k`. -/
def lookupKey {α : Type} (k : Nat) : List (Nat × α) → Option α
  | [] => none
  | (k', v) :: rest => if k = k' then some v else lookupKey k rest

/-! ## Sample memory -/

/-- The canonical form of sample memory: addresses strictly rising and inside the address space (R60).
An unlisted address has no stored value, so no entry can equal one (log 3). -/
abbrev Memory.wf (m : List Host.Cell) : Prop :=
  m.Pairwise (fun c d => c.1 < d.1) ∧ ∀ c ∈ m, c.1 < Config.addrSpace

/-- The byte at `a`. A byte nothing has written holds any value (R280, U3). -/
def readByte (m : List Host.Cell) (a : Nat) : Byte :=
  match lookupKey a m with
  | some b => b
  | none => Config.powerUpByte a

/-- Store one byte. -/
def writeByte (m : List Host.Cell) (a : Nat) (b : Byte) : List Host.Cell := insertKey a b m

/-- `MemRead(a, n)`: the little-endian value of n bytes (R9, R61). -/
def memRead (m : List Host.Cell) (a : Nat) : Nat → Nat
  | 0 => 0
  | n + 1 => (readByte m a).toNat + 256 * memRead m (a + 1) n

/-- `MemWrite(a, n, v)`: the n low bytes of v, low byte first (R9, R61). -/
def memWrite (m : List Host.Cell) (a : Nat) : Nat → Nat → List Host.Cell
  | 0, _ => m
  | n + 1, v => memWrite (writeByte m a (BitVec.ofNat 8 (v % 256))) (a + 1) n (v / 256)

/-- Store bytes at a, a+1, ... (R104, MW8). -/
def storeBytes (m : List Host.Cell) (a : Nat) : List Byte → List Host.Cell
  | [] => m
  | b :: bs => storeBytes (writeByte m a b) (a + 1) bs

/-! ## Byte regions -/

/-- `a` lies in [lo, hi). -/
def Region.has (r : Region) (a : Nat) : Bool := decide (r.lo ≤ a) && decide (a < r.hi)

/-- Two regions share a byte, by the inequality of R241 (E_OVERLAP). -/
def Region.overlaps (r q : Region) : Bool := decide (r.lo < q.hi) && decide (q.lo < r.hi)

/-- Two regions share a byte, also where one of them may be empty. -/
def Region.meets (r q : Region) : Bool := decide (max r.lo q.lo < min r.hi q.hi)

/-- The parts of `r` that `c` does not cover. -/
def Region.cut (c r : Region) : List Region :=
  (if r.lo < min r.hi c.lo then [⟨r.lo, min r.hi c.lo⟩] else [])
    ++ (if max r.lo c.hi < r.hi then [⟨max r.lo c.hi, r.hi⟩] else [])

/-- The parts of the regions `rs` that `c` does not cover. -/
def cutAll (c : Region) (rs : List Region) : List Region := rs.flatMap (Region.cut c)

/-- `a` lies in one of the regions. -/
def anyHas (rs : List Region) (a : Nat) : Bool := rs.any (fun r => r.has a)

/-- The platform backs every byte of `r` with plain memory (R65): nothing of it is left once the backed
regions are cut away. -/
def backed (ram : List Region) (r : Region) : Bool :=
  (ram.foldl (fun left c => cutAll c left) [r]).all (fun q => decide (q.hi ≤ q.lo))

/-! ## STATUS -/

/-- The ERRCODE numbers (R242-R249). -/
def ErrCode.code : ErrCode → BitVec 4
  | .illegalOp => 1#4
  | .reserved  => 2#4
  | .width     => 3#4
  | .empty     => 4#4
  | .shape     => 5#4
  | .align     => 6#4
  | .range     => 7#4
  | .overlap   => 8#4

/-- BDC's only "trap entry": a failed START (R251). No register that holds the cause is touched. -/
def recordError (e : ErrCode) (s : State) : State :=
  { s with err := true, errCode := e.code, done := false, warn := false, warnCode := 0#4 }

/-- The return from a recorded error, completion or warning: a host write of `v` to STATUS clears the
W1C bits it names, ERRCODE with ERR and WARNCODE with WARN (R28, R29, R30, R253). -/
def clearStatus (v : Word) (s : State) : State :=
  { s with
    done     := s.done && !v.getLsbD 1
    err      := s.err && !v.getLsbD 2
    errCode  := if v.getLsbD 2 then 0#4 else s.errCode
    warn     := s.warn && !v.getLsbD 3
    warnCode := if v.getLsbD 3 then 0#4 else s.warnCode }

/-- An accepted START: BUSY rises, the old result is cleared and the warning state recorded (R25, R252). -/
def recordAccept (w : Bool) (s : State) : State :=
  { s with busy := true, done := false, err := false, errCode := 0#4
           warn := w, warnCode := if w then 1#4 else 0#4 }

/-- The completion step (R215): the destination `dst` holds its values in `m`, BUSY falls and DONE rises.
The host sees `dst` from its next read of STATUS on (R75 b, log 5). -/
def complete (dst : Region) (m : List Host.Cell) (s : State) : State :=
  { s with busy := false, done := true, mem := m
           fresh := [dst], stale := cutAll dst (s.fresh ++ s.stale) }

/-! ## Reset -/

/-- Every byte of `r` gets a value drawn freely from draw `d` on (R281, U2). -/
def scramble (d : Nat) (r : Region) (m : List Host.Cell) : List Host.Cell :=
  storeBytes m r.lo ((List.range (r.hi - r.lo)).map (fun k => Config.freeByte (d + k)))

/-- The registers at the values of R280; memory, the platform and the host keep theirs. -/
def resetRegisters (s : State) : State :=
  { s with
    irqEn := false, busy := false, done := false, err := false, warn := false
    errCode := 0#4, warnCode := 0#4
    cmd := 0#32, height := 0#16, width := 0#16, count := 0#16
    srcBase := 0#32, dstBase := 0#32 }

end Sys2Proof.Machine
end

