-- ==== Sys2Proof/Machine/Operands.lean ====
section
/-! DEFINITION. The operands of a command: sample width, geometry, sizes, ranges, frames and samples
(spec/00_scope.md R6, 20_memory.md R62, R66, R67, 30_encoding.md R98-R102). -/

namespace Sys2Proof.Machine

/-- BYTES, bytes per sample (R6, R94). -/
def bytesPer : SampleWidth → Nat
  | .u8  => 1
  | .u16 => 2

/-- MAX, the largest sample value (R6, R94). -/
def maxSample : SampleWidth → Nat
  | .u8  => 255
  | .u16 => 65535

/-- C, the luminance input channel count (R100). LCH = 3 has none: its START fails before any size is
computed (R246). -/
def channels : ChannelLayout → Nat
  | .one         => 1
  | .three       => 3
  | .four        => 4
  | .unsupported => 0

/-- `alg_eff`: ALG 0..3, and 0 for ALG 4..7 (R98, R160). -/
def effectiveOrder (alg : BitVec 3) : Order :=
  if alg = 1#3 then .linear
  else if alg = 2#3 then .quadratic
  else if alg = 3#3 then .cubic
  else .nearest

/-- H, rows of the full-resolution raster (R32, R102). -/
def rows (s : State) : Nat := s.height.toNat

/-- W, columns of the full-resolution raster (R32, R102). -/
def cols (s : State) : Nat := s.width.toNat

/-- N: COUNT for a batch, else 1 (R66, R99). -/
def frameCount (i : Instr) (s : State) : Nat := if i.fields.batch then s.count.toNat else 1

/-- `S_in`, source samples per frame of an H x W command (R66). -/
def samplesIn : Instr → Nat → Nat → Nat
  | .demosaic _, H, W => H * W
  | .split _,    H, W => H * W
  | .gmerge _,   H, W => 2 * (H / 2) * (W / 2)
  | .upsample _, H, W => 3 * (H / 2) * (W / 2)
  | .luma f,     H, W => channels f.lch * H * W

/-- `S_out`, destination samples per frame of an H x W command (R66). -/
def samplesOut : Instr → Nat → Nat → Nat
  | .demosaic f, H, W => if f.out = .color then 3 * H * W else H * W
  | .split _,    H, W => 4 * (H / 2) * (W / 2)
  | .gmerge _,   H, W => (H / 2) * (W / 2)
  | .upsample _, H, W => 3 * H * W
  | .luma _,     H, W => H * W

/-- Bytes of one source frame. -/
def frameBytesIn (i : Instr) (s : State) : Nat :=
  samplesIn i (rows s) (cols s) * bytesPer i.fields.sw

/-- Bytes of one destination frame. -/
def frameBytesOut (i : Instr) (s : State) : Nat :=
  samplesOut i (rows s) (cols s) * bytesPer i.fields.sw

/-- The source range `[SRC_BASE, SRC_BASE + N * S_in * BYTES)` (R66). -/
def srcRange (i : Instr) (s : State) : Region :=
  ⟨s.srcBase.toNat, s.srcBase.toNat + frameCount i s * frameBytesIn i s⟩

/-- The destination range `[DST_BASE, DST_BASE + N * S_out * BYTES)` (R66). -/
def dstRange (i : Instr) (s : State) : Region :=
  ⟨s.dstBase.toNat, s.dstBase.toNat + frameCount i s * frameBytesOut i s⟩

/-- `SB(k)`, source base of frame k (R67). -/
def srcFrame (i : Instr) (s : State) (k : Nat) : Nat := s.srcBase.toNat + k * frameBytesIn i s

/-- `DB(k)`, destination base of frame k (R67). -/
def dstFrame (i : Instr) (s : State) (k : Nat) : Nat := s.dstBase.toNat + k * frameBytesOut i s

/-- `Sample(base, k)` (R62). -/
def sampleAt (m : List Host.Cell) (sw : SampleWidth) (base k : Nat) : Nat :=
  memRead m (base + k * bytesPer sw) (bytesPer sw)

/-- `PutSample(base, k, v)` (R62). -/
def putSample (m : List Host.Cell) (sw : SampleWidth) (base k v : Nat) : List Host.Cell :=
  memWrite m (base + k * bytesPer sw) (bytesPer sw) v

/-- The command in flight: CMD's, while BUSY = 1 (R25, R37, R78). -/
def inFlight (s : State) : Option Instr :=
  if s.busy then
    match decode s.cmd with
    | .ok i => some i
    | .error _ => none
  else none

end Sys2Proof.Machine
end

