-- ==== Sys2Proof/Machine/Flags.lean ====
section
/-! DEFINITION. The flags of BDC as software and the platform see them: the STATUS and CTRL words, the
irq output, and when an accepted command warns (spec/10_state.md R26-R30, 60_exceptions.md R252, R255). -/

namespace Sys2Proof.Machine

/-- The read value of STATUS, `{20'b0, WARNCODE, ERRCODE, WARN, ERR, DONE, BUSY}` (R30). -/
def statusWord (s : State) : Word :=
  BitVec.ofNat 32 (s.busy.toNat + s.done.toNat * 2 ^ 1 + s.err.toNat * 2 ^ 2 + s.warn.toNat * 2 ^ 3
    + s.errCode.toNat * 2 ^ 4 + s.warnCode.toNat * 2 ^ 8)

/-- The read value of CTRL, `{30'b0, IRQ_EN, 1'b0}` (R26). -/
def ctrlWord (s : State) : Word := BitVec.ofNat 32 (s.irqEn.toNat * 2 ^ 1)

/-- The irq output, a level (R255). -/
def State.irq (s : State) : Bool := s.irqEn && (s.done || s.err)

/-- The warning W_ALG_FALLBACK an accepted command records: DEMOSAIC or UPSAMPLE with ALG >= 4
(R30, R252). -/
def warns : Instr → Bool
  | .demosaic f => decide (4 ≤ f.alg.toNat)
  | .upsample f => decide (4 ≤ f.alg.toNat)
  | .split _    => false
  | .gmerge _   => false
  | .luma _     => false

end Sys2Proof.Machine
end

