-- ==== Sys2Proof/Machine/Command.lean ====
section
/-! DEFINITION. What every command shares: the checks of its START, its acceptance or error, and the
engine's pass over its frames (spec/60_exceptions.md R240-R252, 44_demosaic_batch.md R214, R215). -/

namespace Sys2Proof.Machine

/-- E_SHAPE: an odd HEIGHT or WIDTH, or for LUMA the layout LCH = 3 (R246). -/
def shapeViolation : Instr → State → Bool
  | .luma f, _     => f.lch == .unsupported
  | .demosaic _, s => rows s % 2 == 1 || cols s % 2 == 1
  | .split _, s    => rows s % 2 == 1 || cols s % 2 == 1
  | .gmerge _, s   => rows s % 2 == 1 || cols s % 2 == 1
  | .upsample _, s => rows s % 2 == 1 || cols s % 2 == 1

/-- The checks of R241 that a decoded command can still fail, in their order. -/
def validateCommand (i : Instr) (s : State) : Option ErrCode :=
  if rows s = 0 ∨ cols s = 0 ∨ frameCount i s = 0 then some .empty
  else if shapeViolation i s then some .shape
  else if i.fields.sw = .u16 ∧ (s.srcBase.toNat % 2 = 1 ∨ s.dstBase.toNat % 2 = 1) then some .align
  else if Config.addrSpace < (srcRange i s).hi ∨ Config.addrSpace < (dstRange i s).hi then some .range
  else if (srcRange i s).overlaps (dstRange i s) then some .overlap
  else none

/-- The platform backs both ranges of the command with plain memory (R65). -/
def rangesBacked (i : Instr) (s : State) : Bool :=
  backed s.ram (srcRange i s) && backed s.ram (dstRange i s)

/-- The START of a decoded command while BUSY = 0 (R240): failed and recorded, or accepted. A command that
would be accepted but whose range the platform does not back is outside the spec: refused (R65, U5,
log 8). -/
def startPhase (i : Instr) (s : State) : Host.Outcome State Fault Refusal :=
  match validateCommand i s with
  | some e => .next (recordError e s)
  | none => if rangesBacked i s then .next (recordAccept (warns i) s) else .refused .unbackedMemory

/-- The destination samples of one frame, given as (index, value) pairs, stored at `base`. -/
def storeFrame (sw : SampleWidth) (base : Nat) (out : List (Nat × Nat)) (m : List Host.Cell) :
    List Host.Cell :=
  out.foldl (fun m w => putSample m sw base w.1 w.2) m

/-- Sample memory after every frame of the command in flight (R214). `frame` answers the destination
samples of a frame from its source samples; frame k reads only its slot SB(k) and writes only its slot
DB(k). -/
def runFrames (i : Instr) (frame : (Nat → Nat) → List (Nat × Nat)) (s : State) : List Host.Cell :=
  (List.range (frameCount i s)).foldl
    (fun m k =>
      storeFrame i.fields.sw (dstFrame i s k)
        (frame (sampleAt s.mem i.fields.sw (srcFrame i s k))) m)
    s.mem

/-- The engine's step on the command in flight: all frames and the completion as one atomic step
(R215, R40). A command that does not validate, or whose ranges are not backed, is never in flight (R37,
R65, R240). -/
def enginePhase (i : Instr) (frame : (Nat → Nat) → List (Nat × Nat)) (s : State) :
    Host.Outcome State Fault Refusal :=
  if validateCommand i s ≠ none then .refused .invalidInFlight
  else if rangesBacked i s then
    .next (complete (dstRange i s) (runFrames i frame s) s)
  else .refused .unbackedMemory

/-- A command's two phases, told apart by BUSY (log 1): its START while BUSY = 0 (R240), its execution
and completion by the engine while BUSY = 1 (R215). -/
def command (i : Instr) (frame : (Nat → Nat) → List (Nat × Nat)) (s : State) :
    Host.Outcome State Fault Refusal :=
  if s.busy then enginePhase i frame s else startPhase i s

end Sys2Proof.Machine
end

