-- ==== Sys2Proof/Machine/GreenMerge.lean ====
section
/-! DEFINITION. The Green Channel Merger (spec/41_green_merge.md). -/

namespace Sys2Proof.Machine

/-- The sum that is halved, with the rounding increment of RND = 0 (R140, R141); at most 2^17 - 1. -/
def greenSum (rnd : Rounding) (g1 g2 : Nat) : Nat :=
  match rnd with
  | .half  => g1 + g2 + 1
  | .trunc => g1 + g2

/-- The merged green value (R141). -/
def merge (rnd : Rounding) (g1 g2 : Nat) : Nat := greenSum rnd g1 g2 / 2

/-- One frame of GMERGE: planes G1 then G2 to one plane (R143). -/
def mergeFrame (rnd : Rounding) (H W : Nat) (src : Nat → Nat) : List (Nat × Nat) :=
  (List.range (H / 2)).flatMap fun i =>
    (List.range (W / 2)).map fun j =>
      (i * (W / 2) + j,
        merge rnd (src (i * (W / 2) + j)) (src ((H / 2) * (W / 2) + i * (W / 2) + j)))

/-- GMERGE (R143). -/
def execGmerge (f : CmdFields) (s : State) : Host.Outcome State Fault Refusal :=
  command (.gmerge f) (mergeFrame f.rnd (rows s) (cols s)) s

end Sys2Proof.Machine
end

