-- ==== Sys2Proof/Machine/Luminance.lean ====
section
/-! DEFINITION. The Luminance Reducer (spec/43_luminance.md). -/

namespace Sys2Proof.Machine

/-- The weighted sum with its rounding increment (R191); at most 65535500. -/
def lumaSum (r g b : Nat) : Nat := 299 * r + 587 * g + 114 * b + 500

/-- The luminance of a pixel (R191). -/
def luma (r g b : Nat) : Nat := lumaSum r g b / 1000

/-- The samples of an H x W plane (R68). -/
def grayPlane (H W : Nat) (v : Nat → Nat → Nat) : List (Nat × Nat) :=
  (List.range H).flatMap fun y => (List.range W).map fun x => (y * W + x, v y x)

/-- One output sample of LUMA from the pixel that begins at index q: a copy for one channel, else the
luminance of the first three; alpha is not read (R193). -/
def lumaPixel (C : Nat) (src : Nat → Nat) (q : Nat) : Nat :=
  if C = 1 then src q else luma (src q) (src (q + 1)) (src (q + 2))

/-- One frame of LUMA with C channels per pixel (R194). -/
def lumaFrame (C H W : Nat) (src : Nat → Nat) : List (Nat × Nat) :=
  grayPlane H W (fun y x => lumaPixel C src ((y * W + x) * C))

/-- LUMA (R194). -/
def execLuma (f : CmdFields) (s : State) : Host.Outcome State Fault Refusal :=
  command (.luma f) (lumaFrame (channels f.lch) (rows s) (cols s)) s

end Sys2Proof.Machine
end

