-- ==== Sys2Proof/Machine/Splitter.lean ====
section
/-! DEFINITION. The Channel Splitter (spec/40_splitter.md). -/

namespace Sys2Proof.Machine

/-- The (row, column) offset of sub-lattice p (0 G1, 1 G2, 2 R, 3 B) in a 2 x 2 block (R120). -/
def latticeOffset (pat : Pattern) (p : Nat) : Nat × Nat :=
  if p = 0 then (0, 0)
  else if p = 1 then (1, 1)
  else match pat with
    | .grbg => if p = 2 then (0, 1) else (1, 0)
    | .gbrg => if p = 2 then (1, 0) else (0, 1)

/-- Sample (i, j) of sub-lattice p of a raw frame of W columns (R121). -/
def lattice (pat : Pattern) (W : Nat) (raw : Nat → Nat) (p i j : Nat) : Nat :=
  raw ((2 * i + (latticeOffset pat p).1) * W + (2 * j + (latticeOffset pat p).2))

/-- One frame of SPLIT: planes G1, G2, R, B (R122). -/
def splitFrame (pat : Pattern) (H W : Nat) (raw : Nat → Nat) : List (Nat × Nat) :=
  (List.range 4).flatMap fun p =>
    (List.range (H / 2)).flatMap fun i =>
      (List.range (W / 2)).map fun j =>
        (p * (H / 2) * (W / 2) + i * (W / 2) + j, lattice pat W raw p i j)

/-- SPLIT (R122). -/
def execSplit (f : CmdFields) (s : State) : Host.Outcome State Fault Refusal :=
  command (.split f) (splitFrame f.pat (rows s) (cols s)) s

end Sys2Proof.Machine
end

