-- ==== Sys2Proof/Machine/Upsampler.lean ====
section
/-! DEFINITION. The Upsampler (spec/42_upsampler.md). -/

namespace Sys2Proof.Machine

/-- `TAPS[n][p]`: the (offset, weight) pairs of order n at parity p (R163). Order 0 has no filter; its
single tap is the base sample. -/
def taps (n : Order) (p : Nat) : List (Int × Int) :=
  match n with
  | .nearest   => [(0, 1)]
  | .linear    => if p = 0 then [(-1, 1), (0, 3)] else [(0, 3), (1, 1)]
  | .quadratic => if p = 0 then [(-1, 5), (0, 30), (1, -3)] else [(-1, -3), (0, 30), (1, 5)]
  | .cubic     =>
    if p = 0 then [(-2, -5), (-1, 35), (0, 105), (1, -7)]
    else [(-1, -7), (0, 105), (1, 35), (2, -5)]

/-- `s_n`, the per-axis shift (R163). -/
def axisShift : Order → Nat
  | .nearest   => 0
  | .linear    => 2
  | .quadratic => 5
  | .cubic     => 7

/-- `clamp(v, lo, hi)` (R8). -/
def clampInt (v lo hi : Int) : Int := min (max v lo) hi

/-- `e(i, n)`: clamp-to-edge of a source index (R164). -/
def edge (i : Int) (n : Nat) : Nat := (clampInt i 0 ((n : Int) - 1)).toNat

/-- The accumulator of output sample (y, x, c) (R165). -/
def accumulate (n : Order) (h w : Nat) (Q : Nat → Nat → Nat → Nat) (y x c : Nat) : Int :=
  ((taps n (y % 2)).map fun dt =>
    ((taps n (x % 2)).map fun du =>
      dt.2 * du.2 * (Q (edge ((y / 2 : Nat) + dt.1) h) (edge ((x / 2 : Nat) + du.1) w) c : Int)).sum).sum

/-- Output sample (y, x, c) of `upsample(Q, n)` for an h x w x 3 plane and samples up to `top`
(R162, R165, R166). -/
def upsample (n : Order) (top h w : Nat) (Q : Nat → Nat → Nat → Nat) (y x c : Nat) : Nat :=
  match n with
  | .nearest => Q (y / 2) (x / 2) c
  | _ =>
    (clampInt ((accumulate n h w Q y x c + 2 ^ (2 * axisShift n - 1)) / 2 ^ (2 * axisShift n))
      0 top).toNat

/-- The samples of an H x W x 3 plane, channel fastest (R69). -/
def colorPlane (H W : Nat) (v : Nat → Nat → Nat → Nat) : List (Nat × Nat) :=
  (List.range H).flatMap fun y =>
    (List.range W).flatMap fun x =>
      (List.range 3).map fun c => ((y * W + x) * 3 + c, v y x c)

/-- One frame of UPSAMPLE: an h x w x 3 plane to H x W x 3 (R168). -/
def upsampleFrame (n : Order) (top H W : Nat) (src : Nat → Nat) : List (Nat × Nat) :=
  colorPlane H W
    (upsample n top (H / 2) (W / 2) (fun i j c => src ((i * (W / 2) + j) * 3 + c)))

/-- UPSAMPLE (R168). -/
def execUpsample (f : CmdFields) (s : State) : Host.Outcome State Fault Refusal :=
  command (.upsample f)
    (upsampleFrame (effectiveOrder f.alg) (maxSample f.sw) (rows s) (cols s)) s

end Sys2Proof.Machine
end

