-- ==== Sys2Proof/Machine/Demosaic.lean ====
section
/-! DEFINITION. The whole pipeline (spec/44_demosaic_batch.md). -/

namespace Sys2Proof.Machine

/-- The quarter-resolution colour plane of a raw frame (R210). -/
def assemble (pat : Pattern) (rnd : Rounding) (W : Nat) (raw : Nat → Nat) (i j c : Nat) : Nat :=
  if c = 0 then lattice pat W raw 2 i j
  else if c = 1 then merge rnd (lattice pat W raw 0 i j) (lattice pat W raw 1 i j)
  else lattice pat W raw 3 i j

/-- The upsampled plane U of a raw frame (R211). -/
def demosaicPlane (f : CmdFields) (H W : Nat) (raw : Nat → Nat) (y x c : Nat) : Nat :=
  upsample (effectiveOrder f.alg) (maxSample f.sw) (H / 2) (W / 2)
    (assemble f.pat f.rnd W raw) y x c

/-- One frame of DEMOSAIC: U itself, or its luminance after upsampling (R211, R212). -/
def demosaicFrame (f : CmdFields) (H W : Nat) (raw : Nat → Nat) : List (Nat × Nat) :=
  match f.out with
  | .color => colorPlane H W (demosaicPlane f H W raw)
  | .gray =>
    grayPlane H W (fun y x =>
      luma (demosaicPlane f H W raw y x 0) (demosaicPlane f H W raw y x 1)
        (demosaicPlane f H W raw y x 2))

/-- DEMOSAIC (R212). -/
def execDemosaic (f : CmdFields) (s : State) : Host.Outcome State Fault Refusal :=
  command (.demosaic f) (demosaicFrame f (rows s) (cols s)) s

end Sys2Proof.Machine
end

