-- ==== Sys2Proof/Machine/Dispatch.lean ====
section
/-! DEFINITION. The meaning of every command: one arm for each constructor of Instr. -/

namespace Sys2Proof.Machine

def exec (i : Instr) (s : State) : Host.Outcome State Fault Refusal :=
  match i with
  | .demosaic f => Sys2Proof.Machine.execDemosaic f s
  | .split f => Sys2Proof.Machine.execSplit f s
  | .gmerge f => Sys2Proof.Machine.execGmerge f s
  | .upsample f => Sys2Proof.Machine.execUpsample f s
  | .luma f => Sys2Proof.Machine.execLuma f s

end Sys2Proof.Machine
end

