-- ==== Sys2Proof/Machine/Bus.lean ====
section
/-! DEFINITION. The host's accesses: the register window (spec/10_state.md R23-R37), START
(60_exceptions.md R240), and sample memory (20_memory.md R75, 70_reset_and_hazards.md R291). -/

namespace Sys2Proof.Machine

/-- The registers of the window (R23). -/
inductive Reg
  | version
  | ctrl
  | status
  | cmd
  | height
  | width
  | count
  | srcBase
  | dstBase
  /-- Offsets 0x24..0xFC (R35). -/
  | reserved
  deriving DecidableEq, Repr

/-- The register at a byte offset; none where the offset is misaligned or beyond 0xFC (R23, R36). The
table of R23 has nine registers at 0x00..0x20, R6 and D2 count ten: the model follows the table
(DESIGN CHOICE, notes/assumptions/20.md). -/
def Reg.ofOffset (off : Nat) : Option Reg :=
  if off % 4 ≠ 0 ∨ 0xFC < off then none
  else some (
    if off = 0x00 then .version
    else if off = 0x04 then .ctrl
    else if off = 0x08 then .status
    else if off = 0x0C then .cmd
    else if off = 0x10 then .height
    else if off = 0x14 then .width
    else if off = 0x18 then .count
    else if off = 0x1C then .srcBase
    else if off = 0x20 then .dstBase
    else .reserved)

/-- A register read (R24-R35); it has no side effect on BDC (R36). -/
def readReg (r : Reg) (s : State) : Word :=
  match r with
  | .version  => Config.version
  | .ctrl     => ctrlWord s
  | .status   => statusWord s
  | .cmd      => s.cmd
  | .height   => s.height.setWidth 32
  | .width    => s.width.setWidth 32
  | .count    => s.count.setWidth 32
  | .srcBase  => s.srcBase
  | .dstBase  => s.dstBase
  | .reserved => 0#32

/-- The error a START records for a word that is no command (R241, R250). LUMA with LCH = 3 is checked
after emptiness (R106). -/
def wordError (e : DecodeError) (s : State) : ErrCode :=
  match e with
  | .illegalOp => .illegalOp
  | .reserved  => .reserved
  | .width     => .width
  | .lumaShape =>
    if rows s = 0 ∨ cols s = 0 ∨ (bitField s.cmd 12 12 = 1 ∧ s.count.toNat = 0) then .empty
    else .shape

/-- A host write of CTRL with bit 0 = 1 (R25): ignored while BUSY = 1; else the command in CMD is
started (refused where its memory is not backed, R65), or the error of a word that is no command is
recorded (R240, R251). -/
def start (s : State) : Host.Outcome State Fault Refusal :=
  if s.busy then .next s
  else
    match decode s.cmd with
    | .ok i => exec i s
    | .error e => .next (recordError (wordError e s) s)

/-- A register write of `v` (R24-R35, R37). IRQ_EN takes effect before the START of the same write
(R26). -/
def writeReg (r : Reg) (v : Word) (s : State) : Host.Outcome State Fault Refusal :=
  match r with
  | .version  => .next s
  | .ctrl     =>
    if v.getLsbD 0 then start { s with irqEn := v.getLsbD 1 }
    else .next { s with irqEn := v.getLsbD 1 }
  | .status   => .next (clearStatus v s)
  | .cmd      => .next (if s.busy then s else { s with cmd := v })
  | .height   => .next (if s.busy then s else { s with height := v.setWidth 16 })
  | .width    => .next (if s.busy then s else { s with width := v.setWidth 16 })
  | .count    => .next (if s.busy then s else { s with count := v.setWidth 16 })
  | .srcBase  => .next (if s.busy then s else { s with srcBase := v })
  | .dstBase  => .next (if s.busy then s else { s with dstBase := v })
  | .reserved => .next s

/-- What the host's own read of a register settles: a read of STATUS that returns DONE = 1 makes the
completed command's destination visible (R75 b, log 5). -/
def observe (r : Reg) (s : State) : State :=
  if r = .status ∧ s.done = true then { s with fresh := [] } else s

/-- A byte whose value the host may not rely on: in the destination of the command in flight (R75 c,
U1), or in a destination whose DONE = 1 it has not read (R75 b, R291 c). -/
def unsettled (s : State) (a : Nat) : Bool :=
  (match inFlight s with
    | some i => (dstRange i s).has a
    | none => false)
  || anyHas s.fresh a || anyHas s.stale a

/-- The byte the host reads at `a` as the k-th of an access: a free value where it is unsettled. -/
def observeByte (s : State) (k a : Nat) : Byte :=
  if unsettled s a then Config.freeByte (s.draws + k) else readByte s.mem a

/-- The n bytes a host read from `a` returns. -/
def observeBytes (s : State) (a n : Nat) : List Byte :=
  (List.range n).map (fun k => observeByte s k (a + k))

/-- Why the host's access to the n bytes at `a` has no step: past the address space, or not backed. -/
def hostAccessStop (s : State) (a n : Nat) : Option (Host.Outcome State Fault Refusal) :=
  if Config.addrSpace < a + n then some (.fault .outsideAddressSpace)
  else if backed s.ram ⟨a, a + n⟩ then none
  else some (.refused .unbackedMemory)

/-- The access meets a range of the command in flight (R291 b). -/
def touchesRunning (s : State) (r : Region) : Bool :=
  match inFlight s with
  | some i => r.meets (srcRange i s) || r.meets (dstRange i s)
  | none => false

/-- The host stores bytes at a, a+1, ... (R75 a, R104). Its own write settles what it reads there. -/
def hostWrite (a : Nat) (bs : List Byte) (s : State) : Host.Outcome State Fault Refusal :=
  match hostAccessStop s a bs.length with
  | some stop => stop
  | none =>
    if touchesRunning s ⟨a, a + bs.length⟩ then .refused .hostWriteWhileBusy
    else .next
      { s with
        mem   := storeBytes s.mem a bs
        fresh := cutAll ⟨a, a + bs.length⟩ s.fresh
        stale := cutAll ⟨a, a + bs.length⟩ s.stale }

/-- The host reads n bytes from `a` and keeps `pack` of them as list `l` (R104). -/
def hostRead (a n : Nat) (l : Nat) (pack : List Byte → List Half) (s : State) :
    Host.Outcome State Fault Refusal :=
  match hostAccessStop s a n with
  | some stop => stop
  | none =>
    .next { s with lists := insertKey l (pack (observeBytes s a n)) s.lists, draws := s.draws + n }

end Sys2Proof.Machine
end

