-- ==== Sys2Proof/Machine/HostProgram.lean ====
section
/-! DEFINITION. The host program: its statements (spec/30_encoding.md R104) and the pseudo-instructions
that expand to them (R105). -/

namespace Sys2Proof.Machine

/-- The host goes on to its next statement. -/
def advance (s : State) : State := { s with hostPc := s.hostPc + 1 }

/-- The value of a host temporary; one that nothing has assigned reads 0 (log 10). -/
def tempValue (s : State) (t : Nat) : Word :=
  match lookupKey t s.temps with
  | some v => v
  | none => 0#32

/-- The bytes of 16-bit values, low byte first (R61, R104). -/
def unpackHalves (vs : List Half) : List Byte :=
  vs.flatMap (fun v : Half => [v.setWidth 8, (v >>> (8 : Nat)).setWidth 8])

/-- Bytes kept one to a value (MR8). -/
def packBytes (bs : List Byte) : List Half := bs.map (fun b => b.setWidth 16)

/-- Bytes kept as 16-bit values, low byte first (MR16). -/
def packHalves : List Byte → List Half
  | lo :: hi :: rest => (hi ++ lo) :: packHalves rest
  | _ => []

/-- `WR REG, v` (R36, R104). While the reset input is asserted the registers stay at the values of R280,
so the write changes none of them and starts nothing (log 14). -/
def hostWr (size : BusSize) (off : Nat) (v : Word) (s : State) : Host.Outcome State Fault Refusal :=
  match size, Reg.ofOffset off with
  | .word, some r => if s.resetHeld then .next (advance s) else writeReg r v (advance s)
  | _, _ => .refused .registerAccess

/-- `RD REG -> t` (R36, R104). -/
def hostRd (size : BusSize) (off : Nat) (t : Nat) (s : State) : Host.Outcome State Fault Refusal :=
  match size, Reg.ofOffset off with
  | .word, some r =>
    .next (observe r { advance s with temps := insertKey t (readReg r s) s.temps })
  | _, _ => .refused .registerAccess

/-- Branch to `target` where the condition holds, else go on (R104). -/
def branchIf (cond : Bool) (target : Nat) (s : State) : State :=
  if cond then { s with hostPc := target } else advance s

/-- One statement of the host program (R104). -/
def hostExec (st : HostStmt) (s : State) : Host.Outcome State Fault Refusal :=
  match st with
  | .wr size off v  => hostWr size off v s
  | .rd size off t  => hostRd size off t s
  | .mw8 a bs       => hostWrite a.toNat bs (advance s)
  | .mw16 a vs      => hostWrite a.toNat (unpackHalves vs) (advance s)
  | .mr8 a n l      => hostRead a.toNat n l packBytes (advance s)
  | .mr16 a n l     => hostRead a.toNat (2 * n) l packHalves (advance s)
  | .bnz t m target => .next (branchIf (tempValue s t &&& m != 0#32) target s)
  | .bz t m target  => .next (branchIf (tempValue s t &&& m == 0#32) target s)
  | .halt           => .next s

/-- `WAIT`: poll STATUS into t while BUSY (R105); `base` is the index of its first statement. -/
def waitStmts (base t : Nat) : List HostStmt :=
  [.rd .word 0x08 t, .bnz t 0x1#32 base]

/-- `RUN cmd, H, W, N, S, D`, and `RUNI` with `irq` (R105); `base` is the index of its first statement. -/
def runStmts (base : Nat) (irq : Bool) (cmd h w n src dst : Word) (t : Nat) : List HostStmt :=
  [.wr .word 0x0C cmd, .wr .word 0x10 h, .wr .word 0x14 w, .wr .word 0x18 n,
   .wr .word 0x1C src, .wr .word 0x20 dst, .wr .word 0x04 (if irq then 0x3#32 else 0x1#32)]
  ++ waitStmts (base + 7) t

end Sys2Proof.Machine
end

