-- ==== Sys2Proof/Machine/Agents.lean ====
section
/-! DEFINITION. The moves of the three agents: the host, the engine and the reset input
(spec/10_state.md R20, 44_demosaic_batch.md R215, 70_reset_and_hazards.md R280, R281, R296). -/

namespace Sys2Proof.Machine

/-- The host's move: its next statement; none once the program has ended (R298). -/
def hostTurn (s : State) : Host.Outcome State Fault Refusal :=
  match s.prog[s.hostPc]? with
  | some st => hostExec st s
  | none => .next s

/-- The engine's move: the command in flight; idle, it performs no access (R264). -/
def engineTurn (s : State) : Host.Outcome State Fault Refusal :=
  if s.busy then
    match decode s.cmd with
    | .ok i => exec i s
    | .error _ => .refused .invalidInFlight
  else .next s

/-- `r` inside the address space. -/
def clip (r : Region) : Region := ⟨r.lo, min r.hi Config.addrSpace⟩

/-- The reset input is asserted, and stays so until it is released (R280). While BUSY = 1 it aborts the
command, whose destination bytes then hold any value (R281). -/
def assertReset (s : State) : State :=
  match inFlight s with
  | some i =>
    let r := clip (dstRange i s)
    { resetRegisters s with
      resetHeld := true
      mem   := scramble s.draws r s.mem
      draws := s.draws + (r.hi - r.lo)
      fresh := []
      stale := s.fresh ++ s.stale }
  | none => { resetRegisters s with resetHeld := true, fresh := [], stale := s.fresh ++ s.stale }

/-- The reset input is released; the state stays as it is (R280). -/
def releaseReset (s : State) : State := { s with resetHeld := false }

/-- The move of the agent whose turn it is. -/
def turnOf (t : Turn) (s : State) : Host.Outcome State Fault Refusal :=
  match t with
  | .host   => hostTurn s
  | .engine => engineTurn s
  | .reset  => .next (assertReset s)
  | .release => .next (releaseReset s)

/-- The agent that moves when the list of turns is empty: the engine while BUSY = 1, so that an accepted
command completes (R296), else the host (log 2). -/
def defaultTurn (s : State) : Turn := if s.busy then .engine else .host

/-- One move: the listed turn is taken off the list. -/
def nextMove (s : State) : Host.Outcome State Fault Refusal :=
  match s.sched with
  | t :: rest => turnOf t { s with sched := rest }
  | [] => turnOf (defaultTurn s) s

/-- The host's only statement left is the START of `w` in CMD, it is the host's turn, and no reset is
asserted (log 16). -/
def loadCommand (w : Word) (s : State) : State :=
  { s with
    cmd := w, busy := false, resetHeld := false
    prog := [.wr .word 0x04 (if s.irqEn then 0x3#32 else 0x1#32)], hostPc := 0
    sched := .host :: s.sched }

end Sys2Proof.Machine
end

