-- ==== Sys2Proof/Machine/Validation.lean ====
section
/-! DEFINITION. `validate()` of spec/60_exceptions.md R241 on the raw registers, written from the rule and
not from the decoder: the reference that the START of the machine (Bus.lean) is compared with. -/

namespace Sys2Proof.Machine

/-- OP of the raw CMD. -/
def rawOp (s : State) : Nat := bitField s.cmd 3 0

/-- N of R241. -/
def rawFrames (s : State) : Nat := if bitField s.cmd 12 12 = 1 then s.count.toNat else 1

/-- BYTES of the raw CMD (R6). -/
def rawBytes (s : State) : Nat := if bitField s.cmd 6 5 = 0 then 1 else 2

/-- C of the raw CMD (R100). -/
def rawChannels (s : State) : Nat :=
  if bitField s.cmd 14 13 = 0 then 1 else if bitField s.cmd 14 13 = 1 then 3 else 4

/-- `S_in` by OP number (R66). -/
def rawSamplesIn (s : State) : Nat :=
  if rawOp s = 2 then 2 * (rows s / 2) * (cols s / 2)
  else if rawOp s = 3 then 3 * (rows s / 2) * (cols s / 2)
  else if rawOp s = 4 then rawChannels s * rows s * cols s
  else rows s * cols s

/-- `S_out` by OP number (R66). -/
def rawSamplesOut (s : State) : Nat :=
  if rawOp s = 0 then (if bitField s.cmd 8 8 = 1 then 3 * rows s * cols s else rows s * cols s)
  else if rawOp s = 1 then 4 * (rows s / 2) * (cols s / 2)
  else if rawOp s = 2 then (rows s / 2) * (cols s / 2)
  else if rawOp s = 3 then 3 * rows s * cols s
  else rows s * cols s

/-- `src_len` (R241). -/
def rawSrcLen (s : State) : Nat := rawFrames s * rawSamplesIn s * rawBytes s

/-- `dst_len` (R241). -/
def rawDstLen (s : State) : Nat := rawFrames s * rawSamplesOut s * rawBytes s

/-- `validate()` (R241): the checks in their order, the first failure returned. -/
def validate (s : State) : Option ErrCode :=
  if 4 < rawOp s then some .illegalOp
  else if bitField s.cmd 31 15 ≠ 0 then some .reserved
  else if 1 < bitField s.cmd 6 5 then some .width
  else if rows s = 0 ∨ cols s = 0 ∨ rawFrames s = 0 then some .empty
  else if (rawOp s ≠ 4 ∧ (rows s % 2 = 1 ∨ cols s % 2 = 1))
      ∨ (rawOp s = 4 ∧ bitField s.cmd 14 13 = 3) then some .shape
  else if bitField s.cmd 6 5 = 1 ∧ (s.srcBase.toNat % 2 = 1 ∨ s.dstBase.toNat % 2 = 1) then
    some .align
  else if 2 ^ 32 < s.srcBase.toNat + rawSrcLen s ∨ 2 ^ 32 < s.dstBase.toNat + rawDstLen s then
    some .range
  else if s.srcBase.toNat < s.dstBase.toNat + rawDstLen s
      ∧ s.dstBase.toNat < s.srcBase.toNat + rawSrcLen s then some .overlap
  else none

end Sys2Proof.Machine
end

