-- ==== Sys2Proof/Safety.lean ====
section
/-! DEFINITION. What claims about BDC are stated in terms of: the invariant of its runs
(spec/10_state.md R38, 60_exceptions.md R240), a command that is running, and what of memory a move may
change (20_memory.md R72). -/

namespace Sys2Proof.Machine

/-- The flags of R38, with the legal ERRCODE and WARNCODE values of R29 and R30. -/
def FlagsOk (s : State) : Prop :=
  (s.busy = true → s.done = false ∧ s.err = false)
    ∧ (s.err = false ↔ s.errCode = 0#4)
    ∧ (s.warn = false ↔ s.warnCode = 0#4)
    ∧ (s.done = true → s.err = false)
    ∧ s.errCode.toNat ≤ 8 ∧ s.warnCode.toNat ≤ 1

/-- The accepted command `i` is in flight, and the platform backs both its ranges (R65, R66, R240). -/
def Running (i : Instr) (s : State) : Prop :=
  s.busy = true ∧ validateCommand i s = none
    ∧ backed s.ram (srcRange i s) = true ∧ backed s.ram (dstRange i s) = true

/-- While BUSY = 1, CMD holds a command, the registers still validate it and the platform backs its ranges
(R37, R65, R240). -/
def InFlightOk (s : State) : Prop :=
  s.busy = true → ∃ i, decode s.cmd = .ok i ∧ Running i s

/-- Every register at its reset value, the engine idle (R280). -/
def RegistersAtReset (s : State) : Prop :=
  s.irqEn = false ∧ s.busy = false ∧ s.done = false ∧ s.err = false ∧ s.warn = false
    ∧ s.errCode = 0#4 ∧ s.warnCode = 0#4 ∧ s.cmd = 0#32
    ∧ s.height = 0#16 ∧ s.width = 0#16 ∧ s.count = 0#16
    ∧ s.srcBase = 0#32 ∧ s.dstBase = 0#32

/-- While the reset input is asserted the registers are at their reset values (R280). -/
def ResetOk (s : State) : Prop := s.resetHeld = true → RegistersAtReset s

/-- The invariant of every run: canonical memory, legal flags, a valid command in flight, and registers
that an asserted reset holds. -/
def Inv (s : State) : Prop := Memory.wf s.mem ∧ FlagsOk s ∧ InFlightOk s ∧ ResetOk s

/-- Every byte outside `r` reads as before. -/
def UnchangedOutside (r : Region) (m m' : List Host.Cell) : Prop :=
  ∀ a, r.has a = false → readByte m' a = readByte m a

/-- Sample q of source frame k of the command. -/
def srcSample (i : Instr) (s : State) (k q : Nat) : Nat :=
  sampleAt s.mem i.fields.sw (srcFrame i s k) q

/-- Sample q of destination frame k of the command, in memory `m`. -/
def dstSample (i : Instr) (s : State) (m : List Host.Cell) (k q : Nat) : Nat :=
  sampleAt m i.fields.sw (dstFrame i s k) q

/-- The same command for one frame (R214). -/
def singleFrame : Instr → Instr
  | .demosaic f => .demosaic { f with batch := false }
  | .split f    => .split { f with batch := false }
  | .gmerge f   => .gmerge { f with batch := false }
  | .upsample f => .upsample { f with batch := false }
  | .luma f     => .luma { f with batch := false }

/-- The bytes a host statement stores, and where (R104). -/
def storedBytes : HostStmt → Option (Nat × List Byte)
  | .mw8 a bs  => some (a.toNat, bs)
  | .mw16 a vs => some (a.toNat, unpackHalves vs)
  | _ => none

/-- The byte range a host statement accesses in sample memory (R104). -/
def accessedRange : HostStmt → Option Region
  | .mw8 a bs    => some ⟨a.toNat, a.toNat + bs.length⟩
  | .mw16 a vs   => some ⟨a.toNat, a.toNat + 2 * vs.length⟩
  | .mr8 a n _   => some ⟨a.toNat, a.toNat + n⟩
  | .mr16 a n _  => some ⟨a.toNat, a.toNat + 2 * n⟩
  | _ => none

/-- The statement the host would run next, if it is the host's turn. -/
def hostMoves (s : State) : Option HostStmt :=
  if s.sched.headD (defaultTurn s) = .host then s.prog[s.hostPc]? else none

/-- It is the engine's turn. -/
def engineMoves (s : State) : Bool := s.sched.headD (defaultTurn s) == .engine

end Sys2Proof.Machine
end

