-- ==== Sys2Proof/Certificates/Slice0/Obligations.lean ====
section
/-! DEFINITION. The statements about BDC for the provers. Each docstring names the rules of spec/ it
formalises; a clause that rests on a choice of the model says so. -/

open Sys2Proof Sys2Proof.Machine

/-! ## Encoding (30_encoding.md) -/

/-- Words written out from the field table of R91 decode to the commands they stand for. -/
def Obligations.SampleWordsDecodeAsWritten : Prop :=
  decode 0x00000100#32 = .ok (.demosaic ⟨.grbg, .u8, .half, .color, 0, false, .one⟩)
  ∧ decode 0x000017B0#32 = .ok (.demosaic ⟨.gbrg, .u16, .trunc, .color, 3, true, .one⟩)
  ∧ decode 0x00001031#32 = .ok (.split ⟨.gbrg, .u16, .half, .gray, 0, true, .one⟩)
  ∧ decode 0x00000082#32 = .ok (.gmerge ⟨.grbg, .u8, .trunc, .gray, 0, false, .one⟩)
  ∧ decode 0x00000A03#32 = .ok (.upsample ⟨.grbg, .u8, .half, .gray, 5, false, .one⟩)
  ∧ decode 0x00005024#32 = .ok (.luma ⟨.grbg, .u16, .half, .gray, 0, true, .four⟩)
  ∧ decode 0x00000005#32 = .error .illegalOp
  ∧ decode 0x00008000#32 = .error .reserved
  ∧ decode 0x00000040#32 = .error .width
  ∧ decode 0x00006004#32 = .error .lumaShape

/-- Every well-formed command, with every field at every value, is what its assembled word decodes to
(R91, R103, R106). -/
def Obligations.DecodeOfEncodeIsTheCommand : Prop :=
  ∀ i : Instr, i.wellFormed = true → decode (encode i) = .ok i

/-- Every legal word is the assembled word of the one command it decodes to: no bit is dropped
(R91, R103, R106). -/
def Obligations.EncodeOfDecodeIsTheWord : Prop :=
  ∀ (w : Word) (i : Instr), decode w = .ok i → encode i = w ∧ i.wellFormed = true

/-- The decoding summary, R106, with the fields cut out of the word by their bit positions, and the error
a START records for LUMA with LCH = 3 and an empty raster. -/
def Obligations.DecoderFollowsTheSummary : Prop :=
  ∀ w : Word,
    (4 < (w.extractLsb' 0 4).toNat → decode w = .error .illegalOp)
    ∧ ((w.extractLsb' 0 4).toNat ≤ 4 →
        (w.extractLsb' 15 17 ≠ 0 → decode w = .error .reserved)
        ∧ (w.extractLsb' 15 17 = 0 →
            (1 < (w.extractLsb' 5 2).toNat → decode w = .error .width)
            ∧ ((w.extractLsb' 5 2).toNat ≤ 1 →
                ((w.extractLsb' 0 4).toNat = 4 ∧ w.extractLsb' 13 2 = 3#2 →
                  decode w = .error .lumaShape)
                ∧ (¬ ((w.extractLsb' 0 4).toNat = 4 ∧ w.extractLsb' 13 2 = 3#2) →
                    ∃ i, decode w = .ok i
                      ∧ i.opcode = (w.extractLsb' 0 4).toNat
                      ∧ i.fields.pat.code = (w.extractLsb' 4 1).toNat
                      ∧ i.fields.sw.code = (w.extractLsb' 5 2).toNat
                      ∧ i.fields.rnd.code = (w.extractLsb' 7 1).toNat
                      ∧ i.fields.out.code = (w.extractLsb' 8 1).toNat
                      ∧ i.fields.alg = w.extractLsb' 9 3
                      ∧ i.fields.batch.toNat = (w.extractLsb' 12 1).toNat
                      ∧ i.fields.lch.code = (w.extractLsb' 13 2).toNat))))
    ∧ ∀ s : State, s.busy = false → s.cmd = w → decode w = .error .lumaShape →
        s.height = 0 ∨ s.width = 0 ∨ (w.getLsbD 12 = true ∧ s.count = 0) →
        start s = .next (recordError .empty s)

/-! ## Registers (10_state.md) -/

/-- VERSION reads 0x00000001 in every state and ignores writes (R24). -/
def Obligations.VersionReadsOneAndIgnoresWrites : Prop :=
  Reg.ofOffset 0x00 = some .version
  ∧ ∀ (v : Word) (s : State), readReg .version s = 0x00000001#32 ∧ writeReg .version v s = .next s

/-- Reserved offsets and reserved register bits read 0 and ignore writes; CMD stores all its bits (R35). -/
def Obligations.ReservedBitsReadZeroAndIgnoreWrites : Prop :=
  (∀ (off : Nat) (v : Word) (s : State), 0x24 ≤ off → off ≤ 0xFC → off % 4 = 0 →
    ∃ r, Reg.ofOffset off = some r ∧ readReg r s = 0#32 ∧ writeReg r v s = .next s)
  ∧ (∀ s : State,
      readReg .ctrl s &&& 0xFFFFFFFD#32 = 0#32 ∧ readReg .status s &&& 0xFFFFF000#32 = 0#32
      ∧ readReg .height s &&& 0xFFFF0000#32 = 0#32 ∧ readReg .width s &&& 0xFFFF0000#32 = 0#32
      ∧ readReg .count s &&& 0xFFFF0000#32 = 0#32)
  ∧ (∀ (v : Word) (s : State),
      writeReg .ctrl (v &&& 0x3#32) s = writeReg .ctrl v s
      ∧ writeReg .status (v &&& 0xE#32) s = writeReg .status v s
      ∧ writeReg .height (v &&& 0xFFFF#32) s = writeReg .height v s
      ∧ writeReg .width (v &&& 0xFFFF#32) s = writeReg .width v s
      ∧ writeReg .count (v &&& 0xFFFF#32) s = writeReg .count v s)
  ∧ ∀ (v : Word) (s : State), s.busy = false →
      ∃ t, writeReg .cmd v s = .next t ∧ readReg .cmd t = v

/-- While BUSY = 0 each command register reads back what was written to the bits it holds, and the write
changes nothing else (R31-R34). -/
def Obligations.CommandRegistersReadBackTheirWrites : Prop :=
  ∀ (v : Word) (s : State), s.busy = false →
    (writeReg .cmd v s = .next { s with cmd := v } ∧ readReg .cmd { s with cmd := v } = v)
    ∧ (writeReg .srcBase v s = .next { s with srcBase := v }
        ∧ readReg .srcBase { s with srcBase := v } = v)
    ∧ (writeReg .dstBase v s = .next { s with dstBase := v }
        ∧ readReg .dstBase { s with dstBase := v } = v)
    ∧ (∃ h : Half, writeReg .height v s = .next { s with height := h }
        ∧ readReg .height { s with height := h } = v &&& 0xFFFF#32)
    ∧ (∃ w : Half, writeReg .width v s = .next { s with width := w }
        ∧ readReg .width { s with width := w } = v &&& 0xFFFF#32)
    ∧ ∃ n : Half, writeReg .count v s = .next { s with count := n }
        ∧ readReg .count { s with count := n } = v &&& 0xFFFF#32

/-- The bits of a STATUS read and of a CTRL read, in every state (R26, R30). -/
def Obligations.StatusReadsItsFields : Prop :=
  ∀ s : State,
    (readReg .status s).getLsbD 0 = s.busy ∧ (readReg .status s).getLsbD 1 = s.done
    ∧ (readReg .status s).getLsbD 2 = s.err ∧ (readReg .status s).getLsbD 3 = s.warn
    ∧ (readReg .status s).extractLsb' 4 4 = s.errCode
    ∧ (readReg .status s).extractLsb' 8 4 = s.warnCode
    ∧ (readReg .status s).extractLsb' 12 20 = 0#20
    ∧ (readReg .ctrl s).getLsbD 0 = false ∧ (readReg .ctrl s).getLsbD 1 = s.irqEn
    ∧ (readReg .ctrl s).extractLsb' 2 30 = 0#30

/-- A STATUS write clears DONE, ERR with ERRCODE, and WARN with WARNCODE where it writes a 1, in every
state, and changes nothing else (R28, R29, R30, R253). -/
def Obligations.StatusWriteClearsTheNamedFlags : Prop :=
  ∀ (v : Word) (s : State),
    writeReg .status v s = .next
      { s with
        done     := if v.getLsbD 1 = true then false else s.done
        err      := if v.getLsbD 2 = true then false else s.err
        errCode  := if v.getLsbD 2 = true then 0#4 else s.errCode
        warn     := if v.getLsbD 3 = true then false else s.warn
        warnCode := if v.getLsbD 3 = true then 0#4 else s.warnCode }

/-- While BUSY = 1 the command registers ignore writes and a START is ignored; IRQ_EN and the W1C bits
of STATUS stay writable, and BUSY is not (R37). -/
def Obligations.BusyFreezesCommandRegistersAndIgnoresStart : Prop :=
  ∀ (v : Word) (s : State), s.busy = true →
    writeReg .cmd v s = .next s ∧ writeReg .height v s = .next s ∧ writeReg .width v s = .next s
    ∧ writeReg .count v s = .next s ∧ writeReg .srcBase v s = .next s
    ∧ writeReg .dstBase v s = .next s
    ∧ writeReg .ctrl v s = .next { s with irqEn := v.getLsbD 1 }
    ∧ ∃ t, writeReg .status v s = .next t ∧ t.busy = true
        ∧ (v.getLsbD 1 = true → t.done = false)
        ∧ (v.getLsbD 2 = true → t.err = false ∧ t.errCode = 0#4)
        ∧ (v.getLsbD 3 = true → t.warn = false ∧ t.warnCode = 0#4)

/-- The registers stand at the offsets of R23's table (log 20, DESIGN CHOICE). Every host access to the
window that is not a 32-bit access at an aligned offset 0x00..0xFC is refused. A 32-bit aligned read
completes and leaves BDC's registers and memory as they were; a 32-bit aligned write is the write of that
register once the host has gone on (R23, R36, R104, U4), and changes no register while reset is asserted
(the model's reading of R280, log 14). -/
def Obligations.OnlyAlignedWordAccessesReachTheWindow : Prop :=
  (Reg.ofOffset 0x00 = some .version ∧ Reg.ofOffset 0x04 = some .ctrl
    ∧ Reg.ofOffset 0x08 = some .status ∧ Reg.ofOffset 0x0C = some .cmd
    ∧ Reg.ofOffset 0x10 = some .height ∧ Reg.ofOffset 0x14 = some .width
    ∧ Reg.ofOffset 0x18 = some .count ∧ Reg.ofOffset 0x1C = some .srcBase
    ∧ Reg.ofOffset 0x20 = some .dstBase
    ∧ ∀ off, 0x24 ≤ off → off ≤ 0xFC → off % 4 = 0 → Reg.ofOffset off = some .reserved)
  ∧ (∀ (size : BusSize) (off : Nat) (v : Word) (t : Nat) (s : State),
    size ≠ .word ∨ off % 4 ≠ 0 ∨ 0xFC < off →
    hostExec (.wr size off v) s = .refused .registerAccess
    ∧ hostExec (.rd size off t) s = .refused .registerAccess)
  ∧ (∀ (off : Nat) (v : Word) (r : Reg) (s : State), Reg.ofOffset off = some r →
    (s.resetHeld = false →
      hostExec (.wr .word off v) s = writeReg r v { s with hostPc := s.hostPc + 1 })
    ∧ (s.resetHeld = true →
      hostExec (.wr .word off v) s = .next { s with hostPc := s.hostPc + 1 }))
  ∧ ∀ (off t : Nat) (s : State), off % 4 = 0 → off ≤ 0xFC →
    ∃ r fresh, Reg.ofOffset off = some r
      ∧ hostExec (.rd .word off t) s = .next
          { s with hostPc := s.hostPc + 1, temps := insertKey t (readReg r s) s.temps
                   fresh := fresh }

/-- irq is IRQ_EN and (DONE or ERR), a level: 1 after a completion or a failed START exactly where IRQ_EN
is 1, 0 after an accepted START, and 0 once DONE and ERR or IRQ_EN are cleared (R255). A CTRL write with
bit 0 = 0 sets IRQ_EN to bit 1 in every state and starts nothing (R25, R26). -/
def Obligations.IrqIsALevelOfDoneAndErr : Prop :=
  ∀ s : State,
    (s.irq = true ↔ s.irqEn = true ∧ (s.done = true ∨ s.err = true))
    ∧ (∀ r m, (complete r m s).irq = s.irqEn)
    ∧ (∀ e, (recordError e s).irq = s.irqEn)
    ∧ (∀ w, (recordAccept w s).irq = false)
    ∧ (∀ v : Word, v.getLsbD 1 = true → v.getLsbD 2 = true → (clearStatus v s).irq = false)
    ∧ ∀ v : Word, v.getLsbD 0 = false →
        writeReg .ctrl v s = .next { s with irqEn := v.getLsbD 1 }
        ∧ (v.getLsbD 1 = false → { s with irqEn := v.getLsbD 1 }.irq = false)

/-! ## START (60_exceptions.md) -/

/-- A START while BUSY = 0 fails with the error `validate()` of R241 returns, and is accepted where it
returns none; the whole next state is given, and `validate` reads only the six command registers (R240).
An accepted command one of whose ranges the platform does not back is outside the spec (R65, U5): its START
is refused (log 8). `validate` is R241 on the raw registers; the machine's START goes through the decoder
and each command's own checks. -/
def Obligations.StartFollowsValidate : Prop :=
  (∀ s t : State, t.cmd = s.cmd → t.height = s.height → t.width = s.width → t.count = s.count →
    t.srcBase = s.srcBase → t.dstBase = s.dstBase → validate t = validate s)
  ∧ ∀ s : State, s.busy = false →
    (∀ e, validate s = some e → start s = .next (recordError e s))
    ∧ (validate s = none → ∃ i, decode s.cmd = .ok i
        ∧ (rangesBacked i s = true →
            start s = .next
              (recordAccept
                (decide ((rawOp s = 0 ∨ rawOp s = 3) ∧ 4 ≤ (s.cmd.extractLsb' 9 3).toNat)) s))
        ∧ (rangesBacked i s = false → start s = .refused .unbackedMemory))

/-- A failed START sets ERR and ERRCODE, clears DONE, WARN and WARNCODE, and changes nothing else: no
register that holds the cause, no byte of memory (R251). -/
def Obligations.FailedStartRecordsOnlyTheError : Prop :=
  ∀ (s : State) (e : ErrCode), s.busy = false → validate s = some e →
    start s = .next
      { s with
        err := true
        errCode :=
          (match e with
           | .illegalOp => 1#4 | .reserved => 2#4 | .width => 3#4 | .empty => 4#4
           | .shape => 5#4 | .align => 6#4 | .range => 7#4 | .overlap => 8#4)
        done := false, warn := false, warnCode := 0#4 }

/-- An accepted START records the warning state, clears the old result and raises BUSY, and changes
nothing else; a warned command runs with order 0, and irq is 0 (R252). The command's ranges are backed, as
R65 asks; the other case is StartFollowsValidate's. -/
def Obligations.AcceptedStartRecordsTheWarning : Prop :=
  ∀ s : State, s.busy = false → validate s = none →
    (∀ i, decode s.cmd = .ok i → rangesBacked i s = true) →
    ∃ w : Bool,
      (w = true ↔ ((s.cmd.extractLsb' 0 4).toNat = 0 ∨ (s.cmd.extractLsb' 0 4).toNat = 3)
        ∧ 4 ≤ (s.cmd.extractLsb' 9 3).toNat)
      ∧ (w = true → effectiveOrder (s.cmd.extractLsb' 9 3) = .nearest)
      ∧ start s = .next
          { s with busy := true, done := false, err := false, errCode := 0#4
                   warn := w, warnCode := if w = true then 1#4 else 0#4 }
      ∧ (recordAccept w s).irq = false

/-- A START with the reset values of the registers fails with E_EMPTY and touches no memory (R282). -/
def Obligations.StartWithResetRegistersFailsEmpty : Prop :=
  ∀ s : State,
    start (resetRegisters s) = .next { resetRegisters s with err := true, errCode := 4#4 }
    ∧ readReg .status { resetRegisters s with err := true, errCode := 4#4 } = 0x00000044#32
    ∧ (resetRegisters s).mem = s.mem

/-- The meaning of every command while BUSY = 0 is its START: accepted where its checks pass, failed with
the error of the first check that does not (R240), and refused where its checks pass but a range is not
backed (R65, U5, log 8). -/
def Obligations.EveryCommandStartsOrFails : Prop :=
  ∀ (i : Instr) (s : State), s.busy = false →
    (validateCommand i s = none → rangesBacked i s = true →
      exec i s = .next
        { s with busy := true, done := false, err := false, errCode := 0#4
                 warn := warns i, warnCode := if warns i = true then 1#4 else 0#4 })
    ∧ (∀ e, validateCommand i s = some e →
        exec i s = .next
          { s with err := true, errCode := e.code, done := false, warn := false, warnCode := 0#4 })
    ∧ (validateCommand i s = none → rangesBacked i s = false → exec i s = .refused .unbackedMemory)

/-- An accepted command has two non-empty ranges inside the address space with no byte in common, even
bases where samples are 16 bits, and for all but LUMA even dimensions (R241, R72). -/
def Obligations.AcceptedCommandHasSoundRanges : Prop :=
  ∀ (i : Instr) (s : State), validateCommand i s = none →
    (srcRange i s).lo < (srcRange i s).hi ∧ (srcRange i s).hi ≤ 2 ^ 32
    ∧ (dstRange i s).lo < (dstRange i s).hi ∧ (dstRange i s).hi ≤ 2 ^ 32
    ∧ (∀ a, ¬ ((srcRange i s).has a = true ∧ (dstRange i s).has a = true))
    ∧ (i.fields.sw = .u16 → (srcRange i s).lo % 2 = 0 ∧ (dstRange i s).lo % 2 = 0)
    ∧ (i.opcode ≠ 4 → rows s % 2 = 0 ∧ cols s % 2 = 0)

/-- A field its operation does not use may hold any value with no effect on what the command does
(R95). -/
def Obligations.UnusedFieldsHaveNoEffect : Prop :=
  ∀ (f g : CmdFields) (s : State), f.sw = g.sw → f.batch = g.batch →
    (f.pat = g.pat → f.rnd = g.rnd → f.out = g.out → f.alg = g.alg →
      exec (.demosaic f) s = exec (.demosaic g) s)
    ∧ (f.pat = g.pat → exec (.split f) s = exec (.split g) s)
    ∧ (f.rnd = g.rnd → exec (.gmerge f) s = exec (.gmerge g) s)
    ∧ (f.alg = g.alg → exec (.upsample f) s = exec (.upsample g) s)
    ∧ (f.lch = g.lch → exec (.luma f) s = exec (.luma g) s)

/-- A command whose checks pass is refused as unbacked, at its START and in flight alike, exactly where
one of its ranges reaches an address the platform does not back (R65, U5; the map of backed memory is the
model's field, log 7, and that the START already is refused its choice, log 8). -/
def Obligations.UnbackedCommandIsRefused : Prop :=
  ∀ (i : Instr) (s : State), validateCommand i s = none →
    (exec i s = .refused .unbackedMemory ↔
      ∃ a, ((srcRange i s).has a = true ∨ (dstRange i s).has a = true) ∧ anyHas s.ram a = false)

/-! ## The operations (40_splitter.md to 44_demosaic_batch.md)

Each result statement says: the command in flight completes; its next state is the completion step of
R215 over a memory `m`, so every register and every other field is as `complete` says; every byte outside
the destination range reads as before; and every destination sample has the value of the rule. -/

/-- SPLIT writes the four sub-lattices of every frame (R120, R121, R122). -/
def Obligations.SplitWritesTheFourSubLattices : Prop :=
  ∀ (f : CmdFields) (s : State), Running (.split f) s →
    ∃ m, exec (.split f) s = .next (complete (dstRange (.split f) s) m s)
      ∧ UnchangedOutside (dstRange (.split f) s) s.mem m
      ∧ ∀ k i j, k < frameCount (.split f) s → i < rows s / 2 → j < cols s / 2 →
          dstSample (.split f) s m k (i * (cols s / 2) + j)
            = srcSample (.split f) s k ((2 * i) * cols s + 2 * j)
          ∧ dstSample (.split f) s m k ((rows s / 2) * (cols s / 2) + i * (cols s / 2) + j)
            = srcSample (.split f) s k ((2 * i + 1) * cols s + (2 * j + 1))
          ∧ dstSample (.split f) s m k (2 * (rows s / 2) * (cols s / 2) + i * (cols s / 2) + j)
            = (match f.pat with
               | .grbg => srcSample (.split f) s k ((2 * i) * cols s + (2 * j + 1))
               | .gbrg => srcSample (.split f) s k ((2 * i + 1) * cols s + 2 * j))
          ∧ dstSample (.split f) s m k (3 * (rows s / 2) * (cols s / 2) + i * (cols s / 2) + j)
            = (match f.pat with
               | .grbg => srcSample (.split f) s k ((2 * i + 1) * cols s + 2 * j)
               | .gbrg => srcSample (.split f) s k ((2 * i) * cols s + (2 * j + 1)))

/-- GMERGE writes the rounded mean of the two green planes of every frame (R141, R143). -/
def Obligations.GmergeWritesTheRoundedMean : Prop :=
  ∀ (f : CmdFields) (s : State), Running (.gmerge f) s →
    ∃ m, exec (.gmerge f) s = .next (complete (dstRange (.gmerge f) s) m s)
      ∧ UnchangedOutside (dstRange (.gmerge f) s) s.mem m
      ∧ ∀ k i j, k < frameCount (.gmerge f) s → i < rows s / 2 → j < cols s / 2 →
          dstSample (.gmerge f) s m k (i * (cols s / 2) + j)
            = (match f.rnd with
               | .half =>
                 (srcSample (.gmerge f) s k (i * (cols s / 2) + j)
                   + srcSample (.gmerge f) s k
                       ((rows s / 2) * (cols s / 2) + i * (cols s / 2) + j) + 1) / 2
               | .trunc =>
                 (srcSample (.gmerge f) s k (i * (cols s / 2) + j)
                   + srcSample (.gmerge f) s k
                       ((rows s / 2) * (cols s / 2) + i * (cols s / 2) + j)) / 2)

/-- UPSAMPLE writes the upsampled plane of every frame, with the effective order of ALG and channels
apart; for orders 1 to 3 a sample is the rounded and clamped double sum over the taps of its two parities
(R160, R161, R165, R166, R168; the taps are TapTablesSumToTheirShift's, order 0 is
NearestReplicatesEachPixel's). -/
def Obligations.UpsampleWritesTheFilteredPlane : Prop :=
  (∀ (f : CmdFields) (s : State), Running (.upsample f) s →
    ∃ m, exec (.upsample f) s = .next (complete (dstRange (.upsample f) s) m s)
      ∧ UnchangedOutside (dstRange (.upsample f) s) s.mem m
      ∧ ∀ k y x c, k < frameCount (.upsample f) s → y < rows s → x < cols s → c < 3 →
          dstSample (.upsample f) s m k ((y * cols s + x) * 3 + c)
            = upsample (effectiveOrder f.alg) (maxSample f.sw) (rows s / 2) (cols s / 2)
                (fun i j c => srcSample (.upsample f) s k ((i * (cols s / 2) + j) * 3 + c)) y x c)
  ∧ (∀ alg : BitVec 3,
      (alg.toNat = 1 → effectiveOrder alg = .linear)
      ∧ (alg.toNat = 2 → effectiveOrder alg = .quadratic)
      ∧ (alg.toNat = 3 → effectiveOrder alg = .cubic)
      ∧ (alg.toNat = 0 ∨ 4 ≤ alg.toNat → effectiveOrder alg = .nearest))
  ∧ ∀ (n : Order) (top h w : Nat) (Q : Nat → Nat → Nat → Nat) (y x c : Nat), n ≠ .nearest →
      upsample n top h w Q y x c
        = (min (max
            ((((taps n (y % 2)).map fun dy =>
                ((taps n (x % 2)).map fun dx =>
                  dy.2 * dx.2
                    * (Q (edge ((y / 2 : Nat) + dy.1) h) (edge ((x / 2 : Nat) + dx.1) w) c : Int)).sum).sum
              + 2 ^ (2 * axisShift n - 1)) / 2 ^ (2 * axisShift n)) 0) (top : Int)).toNat

/-- LUMA writes the luminance of every pixel, a copy for one channel, alpha unread (R191, R193, R194). -/
def Obligations.LumaWritesTheLuminance : Prop :=
  ∀ (f : CmdFields) (s : State), Running (.luma f) s →
    ∃ m, exec (.luma f) s = .next (complete (dstRange (.luma f) s) m s)
      ∧ UnchangedOutside (dstRange (.luma f) s) s.mem m
      ∧ ∀ k y x, k < frameCount (.luma f) s → y < rows s → x < cols s →
          (f.lch = .one →
            dstSample (.luma f) s m k (y * cols s + x)
              = srcSample (.luma f) s k (y * cols s + x))
          ∧ (f.lch = .three →
              dstSample (.luma f) s m k (y * cols s + x)
                = (299 * srcSample (.luma f) s k ((y * cols s + x) * 3)
                    + 587 * srcSample (.luma f) s k ((y * cols s + x) * 3 + 1)
                    + 114 * srcSample (.luma f) s k ((y * cols s + x) * 3 + 2) + 500) / 1000)
          ∧ (f.lch = .four →
              dstSample (.luma f) s m k (y * cols s + x)
                = (299 * srcSample (.luma f) s k ((y * cols s + x) * 4)
                    + 587 * srcSample (.luma f) s k ((y * cols s + x) * 4 + 1)
                    + 114 * srcSample (.luma f) s k ((y * cols s + x) * 4 + 2) + 500) / 1000)

/-- DEMOSAIC writes the reconstructed image of every frame: split, merge, upsample, and for gray output
the luminance after upsampling (R210, R211, R212). -/
def Obligations.DemosaicWritesTheReconstructedImage : Prop :=
  ∀ (f : CmdFields) (s : State), Running (.demosaic f) s →
    ∃ m, exec (.demosaic f) s = .next (complete (dstRange (.demosaic f) s) m s)
      ∧ UnchangedOutside (dstRange (.demosaic f) s) s.mem m
      ∧ ∀ k, k < frameCount (.demosaic f) s →
          ∃ P U : Nat → Nat → Nat → Nat,
            (∀ i j,
              P i j 0 = (match f.pat with
                | .grbg => srcSample (.demosaic f) s k ((2 * i) * cols s + (2 * j + 1))
                | .gbrg => srcSample (.demosaic f) s k ((2 * i + 1) * cols s + 2 * j))
              ∧ P i j 1 = (match f.rnd with
                | .half =>
                  (srcSample (.demosaic f) s k ((2 * i) * cols s + 2 * j)
                    + srcSample (.demosaic f) s k ((2 * i + 1) * cols s + (2 * j + 1)) + 1) / 2
                | .trunc =>
                  (srcSample (.demosaic f) s k ((2 * i) * cols s + 2 * j)
                    + srcSample (.demosaic f) s k ((2 * i + 1) * cols s + (2 * j + 1))) / 2)
              ∧ P i j 2 = (match f.pat with
                | .grbg => srcSample (.demosaic f) s k ((2 * i + 1) * cols s + 2 * j)
                | .gbrg => srcSample (.demosaic f) s k ((2 * i) * cols s + (2 * j + 1))))
            ∧ (∀ y x c,
                U y x c = upsample (effectiveOrder f.alg) (maxSample f.sw) (rows s / 2) (cols s / 2)
                  P y x c)
            ∧ ∀ y x, y < rows s → x < cols s →
                (f.out = .color → ∀ c, c < 3 →
                  dstSample (.demosaic f) s m k ((y * cols s + x) * 3 + c) = U y x c)
                ∧ (f.out = .gray →
                    dstSample (.demosaic f) s m k (y * cols s + x)
                      = (299 * U y x 0 + 587 * U y x 1 + 114 * U y x 2 + 500) / 1000)

/-- The completion step clears BUSY and sets DONE, leaves ERR, ERRCODE, WARN and WARNCODE as the START
set them, and irq rises where IRQ_EN = 1 (R215). -/
def Obligations.CompletionSetsDoneAndKeepsTheWarning : Prop :=
  ∀ (i : Instr) (s : State), Running i s →
    ∃ t, exec i s = .next t
      ∧ t.busy = false ∧ t.done = true ∧ t.err = s.err ∧ t.errCode = s.errCode
      ∧ t.warn = s.warn ∧ t.warnCode = s.warnCode ∧ t.irq = s.irqEn

/-- The tap tables and shifts, clamp-to-edge of a source index, and that the weights of every list sum to
2^(s_n) (R163, R164). -/
def Obligations.TapTablesSumToTheirShift : Prop :=
  taps .linear 0 = [(-1, 1), (0, 3)] ∧ taps .linear 1 = [(0, 3), (1, 1)]
  ∧ taps .quadratic 0 = [(-1, 5), (0, 30), (1, -3)] ∧ taps .quadratic 1 = [(-1, -3), (0, 30), (1, 5)]
  ∧ taps .cubic 0 = [(-2, -5), (-1, 35), (0, 105), (1, -7)]
  ∧ taps .cubic 1 = [(-1, -7), (0, 105), (1, 35), (2, -5)]
  ∧ axisShift .linear = 2 ∧ axisShift .quadratic = 5 ∧ axisShift .cubic = 7
  ∧ (∀ (i : Int) (n : Nat), 0 < n →
      (edge i n : Int) = if i < 0 then 0 else if (n : Int) ≤ i then (n : Int) - 1 else i)
  ∧ ∀ (n : Order) (p : Nat), ((taps n p).map Prod.snd).sum = 2 ^ axisShift n

/-- Order 0 copies each source pixel to its 2 x 2 block (R162, R167 e). -/
def Obligations.NearestReplicatesEachPixel : Prop :=
  ∀ (top h w : Nat) (Q : Nat → Nat → Nat → Nat) (i j a b c : Nat), a < 2 → b < 2 →
    upsample .nearest top h w Q (2 * i + a) (2 * j + b) c = Q i j c

/-- The signed 32-bit accumulator never overflows, and order 1 accumulates between 0 and 16 MAX
(R165). -/
def Obligations.AccumulatorNeverOverflows : Prop :=
  ∀ (n : Order) (sw : SampleWidth) (h w : Nat) (Q : Nat → Nat → Nat → Nat) (y x c : Nat),
    (∀ i j, Q i j c ≤ maxSample sw) →
    -(2 ^ 31 : Int) ≤ accumulate n h w Q y x c ∧ accumulate n h w Q y x c < 2 ^ 31
    ∧ (n = .linear →
        0 ≤ accumulate n h w Q y x c ∧ accumulate n h w Q y x c ≤ 16 * (maxSample sw : Int))

/-- Every output sample is a sample of the same width, for every order (R166). -/
def Obligations.UpsampleKeepsTheSampleRange : Prop :=
  ∀ (n : Order) (sw : SampleWidth) (h w : Nat) (Q : Nat → Nat → Nat → Nat) (y x c : Nat),
    (∀ i j, Q i j c ≤ maxSample sw) → upsample n (maxSample sw) h w Q y x c ≤ maxSample sw

/-- For order 1 the clamp of R166 never changes the value (R167 b). -/
def Obligations.LinearNeverNeedsTheClamp : Prop :=
  ∀ (sw : SampleWidth) (h w : Nat) (Q : Nat → Nat → Nat → Nat) (y x c : Nat),
    (∀ i j, Q i j c ≤ maxSample sw) →
    (upsample .linear (maxSample sw) h w Q y x c : Int) = (accumulate .linear h w Q y x c + 8) / 16

/-- A uniform channel upsamples to itself for every order (R167 a). -/
def Obligations.UniformPlaneUpsamplesToItself : Prop :=
  ∀ (n : Order) (top h w v : Nat) (Q : Nat → Nat → Nat → Nat) (y x c : Nat), v ≤ top →
    (∀ i j, Q i j c = v) → upsample n top h w Q y x c = v

/-- Every source sample the upsampler reads is inside the plane, and of the channel it writes: planes
that agree there upsample alike (R161, R164, R167 c). -/
def Obligations.UpsampleReadsOnlyInsideThePlane : Prop :=
  ∀ (n : Order) (top h w : Nat) (Q R : Nat → Nat → Nat → Nat) (y x c : Nat),
    y < 2 * h → x < 2 * w → (∀ i j, i < h → j < w → Q i j c = R i j c) →
    upsample n top h w Q y x c = upsample n top h w R y x c

/-- With one source row, or one column, a filter acts along the other axis only: with rounding and range
of that axis alone (R167 d). -/
def Obligations.SingleRowOrColumnFiltersAlongOneAxis : Prop :=
  ∀ (n : Order) (top : Nat) (Q : Nat → Nat → Nat → Nat) (y x c : Nat), n ≠ .nearest →
    (∀ w, upsample n top 1 w Q y x c
      = (clampInt
          ((((taps n (x % 2)).map fun d =>
              d.2 * (Q 0 (edge ((x / 2 : Nat) + d.1) w) c : Int)).sum + 2 ^ (axisShift n - 1))
            / 2 ^ axisShift n) 0 top).toNat)
    ∧ ∀ h, upsample n top h 1 Q y x c
      = (clampInt
          ((((taps n (y % 2)).map fun d =>
              d.2 * (Q (edge ((y / 2 : Nat) + d.1) h) 0 c : Int)).sum + 2 ^ (axisShift n - 1))
            / 2 ^ axisShift n) 0 top).toNat

/-- merge is in range with a 17-bit sum, symmetric, MAX for two MAX, and rounds an odd sum up for RND 0
and down for RND 1 (R140, R141, R142). -/
def Obligations.MergeRoundsInsideTheSampleRange : Prop :=
  ∀ (sw : SampleWidth) (g1 g2 : Nat), g1 ≤ maxSample sw → g2 ≤ maxSample sw →
    (∀ rnd, greenSum rnd g1 g2 < 2 ^ 17 ∧ merge rnd g1 g2 ≤ maxSample sw
      ∧ merge rnd g1 g2 = merge rnd g2 g1 ∧ merge rnd (maxSample sw) (maxSample sw) = maxSample sw)
    ∧ ((g1 + g2) % 2 = 0 → ∀ rnd, 2 * merge rnd g1 g2 = g1 + g2)
    ∧ ((g1 + g2) % 2 = 1 →
        2 * merge .half g1 g2 = g1 + g2 + 1 ∧ 2 * merge .trunc g1 g2 + 1 = g1 + g2)

/-- The luminance fits its 26-bit accumulator and the sample range, is nearest to the exact weighted sum
with halves up, maps uniform gray to itself and never falls when an argument rises (R191, R192). -/
def Obligations.LumaIsNearestAndMonotone : Prop :=
  (∀ (sw : SampleWidth) (r g b : Nat),
    r ≤ maxSample sw → g ≤ maxSample sw → b ≤ maxSample sw →
    lumaSum r g b < 2 ^ 26 ∧ luma r g b ≤ maxSample sw)
  ∧ (∀ r g b : Nat,
      1000 * luma r g b ≤ 299 * r + 587 * g + 114 * b + 500
      ∧ 299 * r + 587 * g + 114 * b < 1000 * luma r g b + 500)
  ∧ (∀ v : Nat, luma v v v = v)
  ∧ ∀ r g b r' g' b' : Nat, r ≤ r' → g ≤ g' → b ≤ b' → luma r g b ≤ luma r' g' b'

/-- SPLIT's destination is a permutation of the frame's samples, and the two patterns differ only by the
exchange of planes R and B (R123 a, b). -/
def Obligations.SplitPermutesTheFrame : Prop :=
  (∀ (pat : Pattern) (H W : Nat) (raw : Nat → Nat), H % 2 = 0 → W % 2 = 0 →
    ((splitFrame pat H W raw).map Prod.snd).Perm ((List.range (H * W)).map raw))
  ∧ ∀ (W : Nat) (raw : Nat → Nat) (i j : Nat),
      lattice .gbrg W raw 0 i j = lattice .grbg W raw 0 i j
      ∧ lattice .gbrg W raw 1 i j = lattice .grbg W raw 1 i j
      ∧ lattice .gbrg W raw 2 i j = lattice .grbg W raw 3 i j
      ∧ lattice .gbrg W raw 3 i j = lattice .grbg W raw 2 i j

/-! ## The engine and memory (20_memory.md) -/

/-- A 16-bit value is stored low byte first (R61). -/
def Obligations.SixteenBitValuesAreLittleEndian : Prop :=
  ∀ (m : List Host.Cell) (a v : Nat), v < 65536 →
    (readByte (memWrite m a 2 v) a).toNat = v % 256
    ∧ (readByte (memWrite m a 2 v) (a + 1)).toNat = v / 256
    ∧ memRead (memWrite m a 2 v) a 2 = v
    ∧ memRead m a 2 = (readByte m a).toNat + 256 * (readByte m (a + 1)).toNat

/-- The command in flight writes every byte of its destination range and no other byte; its source range
reads as before (R72). That a byte has been written is said as the model says it: memory lists it (log 3,
DESIGN CHOICE); a byte listed before meets that clause too, the result statements give the values. -/
def Obligations.EngineWritesExactlyTheDestination : Prop :=
  ∀ (i : Instr) (s : State), Running i s →
    ∃ m, exec i s = .next (complete (dstRange i s) m s)
      ∧ UnchangedOutside (dstRange i s) s.mem m
      ∧ (∀ a, (dstRange i s).has a = true → (lookupKey a m).isSome = true)
      ∧ ∀ a, (srcRange i s).has a = true → readByte m a = readByte s.mem a

/-- Two runs of a command that agree on its dimensions, its frame count and the bytes of its source range
write the same destination bytes, whatever else differs: bases, the old destination, every other byte and
register (R72, R216). -/
def Obligations.DestinationDependsOnlyOnTheSource : Prop :=
  ∀ (i : Instr) (s s' : State), Running i s → Running i s' →
    s'.height = s.height → s'.width = s.width → frameCount i s' = frameCount i s →
    (∀ q, s.srcBase.toNat + q < (srcRange i s).hi →
      readByte s'.mem (s'.srcBase.toNat + q) = readByte s.mem (s.srcBase.toNat + q)) →
    ∃ m m', exec i s = .next (complete (dstRange i s) m s)
      ∧ exec i s' = .next (complete (dstRange i s') m' s')
      ∧ ∀ q, s.dstBase.toNat + q < (dstRange i s).hi →
          readByte m' (s'.dstBase.toNat + q) = readByte m (s.dstBase.toNat + q)

/-- Frame k of a batch is the single-frame result of the same operation on frame k's slots (R67, R214). -/
def Obligations.BatchFrameMatchesTheSingleFrame : Prop :=
  ∀ (i : Instr) (s : State) (k : Nat), Running i s → k < frameCount i s →
    ∃ m m₁ s₁,
      s₁ = { s with srcBase := BitVec.ofNat 32 (srcFrame i s k)
                    dstBase := BitVec.ofNat 32 (dstFrame i s k) }
      ∧ exec i s = .next (complete (dstRange i s) m s)
      ∧ exec (singleFrame i) s₁ = .next (complete (dstRange (singleFrame i) s₁) m₁ s₁)
      ∧ ∀ q, q < samplesOut i (rows s) (cols s) →
          dstSample i s m k q = dstSample (singleFrame i) s₁ m₁ 0 q

/-- For one frame, DEMOSAIC in colour writes what SPLIT, GMERGE on its planes, a host copy that
interleaves R, G and B, and UPSAMPLE write one after the other; in gray, what LUMA then makes of that
(R213). The commands run in states of their own: `s₀` has the raw frame, and each later one's source holds
what the earlier ones wrote. -/
def Obligations.UnitCommandsComposeToDemosaic : Prop :=
  ∀ (f : CmdFields) (s₀ s₁ s₂ s₃ t₁ t₂ t₃ : State), f.batch = false →
    Running (.demosaic f) s₀ → Running (.split f) s₁ → Running (.gmerge f) s₂ →
    Running (.upsample f) s₃ →
    (rows s₁ = rows s₀ ∧ rows s₂ = rows s₀ ∧ rows s₃ = rows s₀) →
    (cols s₁ = cols s₀ ∧ cols s₂ = cols s₀ ∧ cols s₃ = cols s₀) →
    exec (.split f) s₁ = .next t₁ → exec (.gmerge f) s₂ = .next t₂ →
    exec (.upsample f) s₃ = .next t₃ →
    (∀ q, q < rows s₀ * cols s₀ → srcSample (.split f) s₁ 0 q = srcSample (.demosaic f) s₀ 0 q) →
    (∀ q, q < 2 * (rows s₀ / 2) * (cols s₀ / 2) →
      srcSample (.gmerge f) s₂ 0 q = dstSample (.split f) s₁ t₁.mem 0 q) →
    (∀ q, q < (rows s₀ / 2) * (cols s₀ / 2) →
      srcSample (.upsample f) s₃ 0 (q * 3)
          = dstSample (.split f) s₁ t₁.mem 0 (2 * (rows s₀ / 2) * (cols s₀ / 2) + q)
      ∧ srcSample (.upsample f) s₃ 0 (q * 3 + 1) = dstSample (.gmerge f) s₂ t₂.mem 0 q
      ∧ srcSample (.upsample f) s₃ 0 (q * 3 + 2)
          = dstSample (.split f) s₁ t₁.mem 0 (3 * (rows s₀ / 2) * (cols s₀ / 2) + q)) →
    ∃ t₀, exec (.demosaic f) s₀ = .next t₀
      ∧ (f.out = .color → ∀ q, q < 3 * rows s₀ * cols s₀ →
          dstSample (.demosaic f) s₀ t₀.mem 0 q = dstSample (.upsample f) s₃ t₃.mem 0 q)
      ∧ (f.out = .gray → ∀ s₄ : State, Running (.luma { f with lch := .three }) s₄ →
          rows s₄ = rows s₀ → cols s₄ = cols s₀ →
          (∀ q, q < 3 * rows s₀ * cols s₀ →
            srcSample (.luma { f with lch := .three }) s₄ 0 q
              = dstSample (.upsample f) s₃ t₃.mem 0 q) →
          ∃ t₄, exec (.luma { f with lch := .three }) s₄ = .next t₄
            ∧ ∀ q, q < rows s₀ * cols s₀ →
                dstSample (.demosaic f) s₀ t₀.mem 0 q
                  = dstSample (.luma { f with lch := .three }) s₄ t₄.mem 0 q)

/-! ## The agents and whole-machine rules -/

/-- A step in which the host moves is its next statement. Where that is a write of CTRL with START, the step
is the START after the turn is taken off the list, the host has gone on and IRQ_EN has its new value
(R22, R25, R26): while BUSY = 0, `exec` of the command CMD decodes to, and where CMD decodes to none, the
recording of that word's error (R242-R244, R251). -/
def Obligations.StartStepRunsTheDecodedCommand : Prop :=
  (∀ (s : State) (st : HostStmt), s.prog[s.hostPc]? = some st →
    (∀ rest, s.sched = .host :: rest → step s = hostExec st { s with sched := rest })
    ∧ (s.busy = false → s.sched = [] → step s = hostExec st s))
  ∧ ∀ (s : State) (v : Word), s.resetHeld = false →
    s.prog[s.hostPc]? = some (.wr .word 0x04 v) → v.getLsbD 0 = true →
    (∀ rest, s.sched = .host :: rest →
      step s = start { s with sched := rest, hostPc := s.hostPc + 1, irqEn := v.getLsbD 1 })
    ∧ (s.busy = false → s.sched = [] →
      step s = start { s with hostPc := s.hostPc + 1, irqEn := v.getLsbD 1 })
    ∧ (∀ i : Instr, s.busy = false → decode s.cmd = .ok i →
      (∀ rest, s.sched = .host :: rest →
        step s = exec i { s with sched := rest, hostPc := s.hostPc + 1, irqEn := v.getLsbD 1 })
      ∧ (s.sched = [] →
        step s = exec i { s with hostPc := s.hostPc + 1, irqEn := v.getLsbD 1 }))
    ∧ ∀ (e : DecodeError) (rest : List Turn), s.busy = false → decode s.cmd = .error e →
      s.sched = .host :: rest →
      step s = .next (recordError (wordError e s)
        { s with sched := rest, hostPc := s.hostPc + 1, irqEn := v.getLsbD 1 })

/-- A step of the engine while BUSY = 1 is `exec` of the command CMD decodes to, after the turn is taken
off the list (R78, R215). -/
def Obligations.EngineStepRunsTheCommandInFlight : Prop :=
  ∀ (s : State) (i : Instr), s.busy = true → decode s.cmd = .ok i →
    (∀ rest, s.sched = .engine :: rest → step s = exec i { s with sched := rest })
    ∧ (s.sched = [] → step s = exec i s)

/-- The invariant holds at reset, where no command is in flight (R280) and, by the model's choice (log 14),
the reset input is released; the memory clause is the model's canonical form (log 3). -/
def Obligations.InvariantHoldsAtReset : Prop :=
  Inv State.reset ∧ State.reset.busy = false ∧ State.reset.resetHeld = false

/-- Every step keeps the invariant: canonical memory (log 3), the flags of R38, a command in flight that
CMD still holds, the registers still validate (R37, R240) and the platform backs (R65, log 8), and registers
at their reset values while reset is asserted (R280). -/
def Obligations.EveryStepKeepsTheInvariant : Prop :=
  ∀ s t : State, Inv s → step s = .next t → Inv t

/-- DONE rises only in the engine's completion step of a command in flight (R28). -/
def Obligations.DoneRisesOnlyAtCompletion : Prop :=
  ∀ s t : State, step s = .next t → s.done = false → t.done = true →
    engineMoves s = true ∧ s.busy = true ∧ t.busy = false

/-- BUSY rises only in a START write by the host that `validate()` accepts, and not while reset is
asserted (R25, R27, R240, R280); the command then in flight is the one CMD decodes to, and its ranges are
backed (R65, log 8). -/
def Obligations.BusyRisesOnlyAtAnAcceptedStart : Prop :=
  ∀ s t : State, step s = .next t → s.busy = false → t.busy = true →
    validate s = none ∧ s.resetHeld = false
    ∧ (∃ v : Word, hostMoves s = some (.wr .word 0x04 v) ∧ v.getLsbD 0 = true)
    ∧ ∃ i, decode s.cmd = .ok i ∧ Running i t

/-- While a command is in flight its operand registers do not change (R37, R290). -/
def Obligations.CommandInFlightKeepsItsRegisters : Prop :=
  ∀ s t : State, step s = .next t → s.busy = true → s.sched.headD .engine ≠ .reset →
    t.cmd = s.cmd ∧ t.height = s.height ∧ t.width = s.width ∧ t.count = s.count
    ∧ t.srcBase = s.srcBase ∧ t.dstBase = s.dstBase

/-- A byte of sample memory changes in a step only if it lies in the destination of the command in
flight and the engine moves or reset is asserted, or the host's statement stores to it; in particular no
START and no register access changes memory (R72, R75 d, R264, R281). -/
def Obligations.MemoryChangesOnlyWhereAllowed : Prop :=
  ∀ (s t : State) (a : Nat), step s = .next t → readByte t.mem a ≠ readByte s.mem a →
    (∃ i, inFlight s = some i ∧ (dstRange i s).has a = true
      ∧ (s.sched.headD (defaultTurn s) = .engine ∨ s.sched.headD (defaultTurn s) = .reset))
    ∨ ∃ st b bs, hostMoves s = some st ∧ storedBytes st = some (b, bs)
        ∧ b ≤ a ∧ a < b + bs.length

/-- A command in flight completes at the engine's next turn, and the engine has one whenever the list of
turns is empty (R296; the list of turns is the model's, log 2). -/
def Obligations.EngineTurnCompletesTheCommand : Prop :=
  ∀ (s : State) (i : Instr), decode s.cmd = .ok i → Running i s →
    (s.sched = [] ∨ s.sched.head? = some .engine) →
    ∃ t, step s = .next t ∧ t.busy = false ∧ t.done = true

/-- No operation faults at run time: a step faults only where the host itself accesses memory past
address 2^32 - 1 (R257; that fault is the model's, log 11). -/
def Obligations.OnlyHostAccessesPastMemoryFault : Prop :=
  ∀ (s : State) (e : Fault), step s = .fault e →
    ∃ st r, hostMoves s = some st ∧ accessedRange st = some r ∧ 2 ^ 32 < r.hi

/-- In a state of the invariant the engine's turn never meets a command that does not validate (R37,
R240), and every move of the engine has a next state: an unbacked command is never in flight (R65,
log 8). -/
def Obligations.InvariantExcludesAnInvalidCommandInFlight : Prop :=
  ∀ s : State, Inv s →
    step s ≠ .refused .invalidInFlight ∧ (engineMoves s = true → ∃ t, step s = .next t)

/-! ## Host access to memory (20_memory.md R75, 70_reset_and_hazards.md R291) -/

/-- What the host writes to backed memory while no command runs lies there byte by byte, a 16-bit value
low byte first, and reads back, as 16-bit values and as bytes (R61, R64, R104). -/
def Obligations.HostReadsBackWhatItWrote : Prop :=
  ∀ (a : Word) (l : Nat) (s : State), s.busy = false →
    (∀ vs : List Half, a.toNat + 2 * vs.length ≤ 2 ^ 32 →
      backed s.ram ⟨a.toNat, a.toNat + 2 * vs.length⟩ = true →
      ∃ t u, hostExec (.mw16 a vs) s = .next t ∧ hostExec (.mr16 a vs.length l) t = .next u
        ∧ lookupKey l u.lists = some vs
        ∧ UnchangedOutside ⟨a.toNat, a.toNat + 2 * vs.length⟩ s.mem t.mem
        ∧ ∀ (k : Nat) (v : Half), vs[k]? = some v →
            (readByte t.mem (a.toNat + 2 * k)).toNat = v.toNat % 256
            ∧ (readByte t.mem (a.toNat + 2 * k + 1)).toNat = v.toNat / 256)
    ∧ ∀ bs : List Byte, a.toNat + bs.length ≤ 2 ^ 32 →
      backed s.ram ⟨a.toNat, a.toNat + bs.length⟩ = true →
      ∃ t u, hostExec (.mw8 a bs) s = .next t ∧ hostExec (.mr8 a bs.length l) t = .next u
        ∧ lookupKey l u.lists = some (bs.map fun b => b.setWidth 16)
        ∧ UnchangedOutside ⟨a.toNat, a.toNat + bs.length⟩ s.mem t.mem
        ∧ ∀ (k : Nat) (b : Byte), bs[k]? = some b → readByte t.mem (a.toNat + k) = b

/-- A host read of destination bytes while the command is in flight returns free values, one drawn for
each byte, whatever the memory holds (R75 c, U1; the stream of free values is the model's, log 4). -/
def Obligations.HostReadsOfARunningDestinationAreFree : Prop :=
  ∀ (i : Instr) (a : Word) (n l : Nat) (s : State), inFlight s = some i →
    (dstRange i s).lo ≤ a.toNat → a.toNat + n ≤ (dstRange i s).hi → a.toNat + n ≤ 2 ^ 32 →
    backed s.ram ⟨a.toNat, a.toNat + n⟩ = true →
    ∃ t, hostExec (.mr8 a n l) s = .next t
      ∧ lookupKey l t.lists
        = some ((List.range n).map fun k => (Config.freeByte (s.draws + k)).setWidth 16)
      ∧ t.mem = s.mem

/-- After the completion and the host's read of STATUS, which returns DONE = 1, the host reads what the
engine wrote in every byte of the destination (R75 b). -/
def Obligations.DestinationIsVisibleAfterDoneIsRead : Prop :=
  ∀ (i : Instr) (s : State) (tmp : Nat), Running i s →
    ∃ t u, exec i s = .next t ∧ hostExec (.rd .word 0x08 tmp) t = .next u
      ∧ ((lookupKey tmp u.temps).map fun v => v.getLsbD 1) = some true
      ∧ u.mem = t.mem
      ∧ ∀ a k, (dstRange i s).has a = true → observeByte u k a = readByte t.mem a

/-- A host store to a byte of the source or destination range while the command is in flight has no step
(R291 b, U6). -/
def Obligations.HostStoreToARunningRangeIsRefused : Prop :=
  ∀ (i : Instr) (st : HostStmt) (b : Nat) (bs : List Byte) (s : State), inFlight s = some i →
    storedBytes st = some (b, bs) → b + bs.length ≤ 2 ^ 32 →
    backed s.ram ⟨b, b + bs.length⟩ = true →
    (hostExec st s = .refused .hostWriteWhileBusy ↔
      ∃ a, b ≤ a ∧ a < b + bs.length
        ∧ ((srcRange i s).has a = true ∨ (dstRange i s).has a = true))

/-- BNZ and BZ test the masked temporary and change only the host's next statement (R104). -/
def Obligations.HostBranchesTestTheMaskedTemporary : Prop :=
  ∀ (t : Nat) (v m : Word) (target : Nat) (s : State), lookupKey t s.temps = some v →
    (v &&& m ≠ 0#32 →
      hostExec (.bnz t m target) s = .next { s with hostPc := target }
      ∧ hostExec (.bz t m target) s = .next { s with hostPc := s.hostPc + 1 })
    ∧ (v &&& m = 0#32 →
        hostExec (.bnz t m target) s = .next { s with hostPc := s.hostPc + 1 }
        ∧ hostExec (.bz t m target) s = .next { s with hostPc := target })

/-! ## Reset (70_reset_and_hazards.md) -/

/-- Asserting reset puts every register at its value of R280, the engine idle and irq 0; with no command
in flight no byte of memory changes. That the registers stay so while it is asserted, whatever the host
writes, is the model's reading of R280 (log 14), as is its release; that a step whose turn is the assertion
or the release is that move is the model's list of turns (log 2). -/
def Obligations.ResetPutsEveryRegisterAtItsValue : Prop :=
  (∀ s : State,
    ∃ t, turnOf .reset s = .next t ∧ t.resetHeld = true ∧ RegistersAtReset t
      ∧ (inFlight s = none → t.mem = s.mem)
      ∧ State.reset = { State.reset with
          irqEn := t.irqEn, busy := t.busy, done := t.done, err := t.err, warn := t.warn
          errCode := t.errCode, warnCode := t.warnCode, cmd := t.cmd, height := t.height
          width := t.width, count := t.count, srcBase := t.srcBase, dstBase := t.dstBase })
  ∧ (∀ s : State, RegistersAtReset s →
      readReg .version s = 0x00000001#32 ∧ readReg .ctrl s = 0#32 ∧ readReg .status s = 0#32
      ∧ readReg .cmd s = 0#32 ∧ readReg .height s = 0#32 ∧ readReg .width s = 0#32
      ∧ readReg .count s = 0#32 ∧ readReg .srcBase s = 0#32 ∧ readReg .dstBase s = 0#32
      ∧ s.irq = false ∧ inFlight s = none)
  ∧ (∀ s t : State, s.resetHeld = true → RegistersAtReset s →
      s.sched.headD (defaultTurn s) ≠ .release → step s = .next t →
      t.resetHeld = true ∧ RegistersAtReset t)
  ∧ (∀ s : State, turnOf .release s = .next { s with resetHeld := false })
  ∧ ∀ (s : State) (rest : List Turn),
      (s.sched = .reset :: rest → step s = turnOf .reset { s with sched := rest })
      ∧ (s.sched = .release :: rest → step s = turnOf .release { s with sched := rest })

/-- A reset while BUSY = 1 aborts the command: every register has its reset value, the source range and
every byte outside the destination range read as before, and each destination byte holds a free value of
its own (R281, U2; the stream of free values is the model's, log 4). -/
def Obligations.AbortingResetFreesOnlyTheDestination : Prop :=
  ∀ (i : Instr) (s : State), inFlight s = some i → validateCommand i s = none →
    ∃ t, turnOf .reset s = .next t ∧ t.busy = false ∧ t.done = false
      ∧ (∀ r, readReg r t = readReg r State.reset)
      ∧ UnchangedOutside (dstRange i s) s.mem t.mem
      ∧ (∀ a, (srcRange i s).has a = true → readByte t.mem a = readByte s.mem a)
      ∧ ∀ k, (dstRange i s).lo + k < (dstRange i s).hi →
          readByte t.mem ((dstRange i s).lo + k) = Config.freeByte (s.draws + k)
end

