-- ==== Sys2Proof/Laws/Decode.lean ====
section
/-! SUPPORT. The bit fields of a command word, and that code and value of each field agree. -/

namespace Sys2Proof

/-- A bit field is the extracted bits as a number (R7). -/
theorem bitField_eq_extract (w : Word) (hi lo : Nat) :
    bitField w hi lo = (w.extractLsb' lo (hi + 1 - lo)).toNat := by
  rw [bitField, BitVec.extractLsb'_toNat, Nat.shiftRight_eq_div_pow]

theorem bitField_lt (w : Word) (hi lo : Nat) : bitField w hi lo < 2 ^ (hi + 1 - lo) :=
  Nat.mod_lt _ (by positivity)

theorem CmdFields.bits_lt (f : CmdFields) : f.bits < 2 ^ 15 := by
  have h := f.alg.isLt
  have hb : f.batch.toNat ≤ 1 := Bool.toNat_le _
  simp only [CmdFields.bits]
  cases f.pat <;> cases f.sw <;> cases f.rnd <;> cases f.out <;> cases f.lch <;>
    simp only [Pattern.code, SampleWidth.code, Rounding.code, OutputForm.code, ChannelLayout.code] <;>
    omega

theorem Instr.opcode_le (i : Instr) : i.opcode ≤ 4 := by cases i <;> simp [Instr.opcode]

/-- The assembled word as a number (R103). -/
theorem encode_toNat (i : Instr) : (encode i).toNat = i.opcode + i.fields.bits := by
  have h1 := i.fields.bits_lt
  have h2 := i.opcode_le
  simp only [encode, BitVec.toNat_ofNat]
  omega

@[simp] theorem patternOf_code (p : Pattern) : patternOf p.code = p := by cases p <;> rfl
@[simp] theorem sampleWidthOf_code (s : SampleWidth) : sampleWidthOf s.code = some s := by
  cases s <;> rfl
@[simp] theorem roundingOf_code (r : Rounding) : roundingOf r.code = r := by cases r <;> rfl
@[simp] theorem outputFormOf_code (o : OutputForm) : outputFormOf o.code = o := by cases o <;> rfl
@[simp] theorem channelLayoutOf_code (l : ChannelLayout) : channelLayoutOf l.code = l := by
  cases l <;> rfl

theorem code_patternOf {n : Nat} (h : n < 2) : (patternOf n).code = n := by
  obtain rfl | rfl : n = 0 ∨ n = 1 := by omega
  all_goals rfl

theorem code_roundingOf {n : Nat} (h : n < 2) : (roundingOf n).code = n := by
  obtain rfl | rfl : n = 0 ∨ n = 1 := by omega
  all_goals rfl

theorem code_outputFormOf {n : Nat} (h : n < 2) : (outputFormOf n).code = n := by
  obtain rfl | rfl : n = 0 ∨ n = 1 := by omega
  all_goals rfl

theorem code_channelLayoutOf {n : Nat} (h : n < 4) : (channelLayoutOf n).code = n := by
  obtain rfl | rfl | rfl | rfl : n = 0 ∨ n = 1 ∨ n = 2 ∨ n = 3 := by omega
  all_goals rfl

theorem sampleWidthOf_eq_some {n : Nat} {s : SampleWidth} :
    sampleWidthOf n = some s ↔ n = s.code := by
  cases s <;> simp only [sampleWidthOf, SampleWidth.code] <;> split <;> simp_all

theorem sampleWidthOf_eq_none {n : Nat} : sampleWidthOf n = none ↔ 1 < n := by
  simp only [sampleWidthOf]
  split
  · simp_all
  · split
    · simp_all
    · simp; omega

theorem operationOf_eq_some {n : Nat} {f : CmdFields} {i : Instr} :
    operationOf n f = some i ↔ i.opcode = n ∧ i.fields = f := by
  constructor
  · intro h
    simp only [operationOf] at h
    repeat' split at h
    all_goals first | (cases h; subst_vars; exact ⟨rfl, rfl⟩) | cases h
  · rintro ⟨rfl, rfl⟩
    cases i <;> rfl

/-- Everything the decoder needs of a word to accept it, and what it then answers (R106). -/
theorem decode_eq_ok {w : Word} {i : Instr} :
    decode w = .ok i ↔
      bitField w 3 0 = i.opcode ∧ bitField w 31 15 = 0 ∧ bitField w 6 5 = i.fields.sw.code
      ∧ i.fields = fieldsOf w i.fields.sw ∧ i.wellFormed = true := by
  have hop := i.opcode_le
  simp only [decode]
  split
  case isTrue h => simp; omega
  case isFalse h =>
    split
    case isTrue h2 => simp; tauto
    case isFalse h2 =>
      simp only [ne_eq, not_not] at h2
      cases hs : sampleWidthOf (bitField w 6 5) with
      | none =>
        rw [sampleWidthOf_eq_none] at hs
        have : i.fields.sw.code ≤ 1 := by cases i.fields.sw <;> decide
        simp; omega
      | some sw =>
        rw [sampleWidthOf_eq_some] at hs
        simp only [hs, h2, true_and]
        cases ho : operationOf (bitField w 3 0) (fieldsOf w sw) with
        | none =>
          exfalso
          have hlt : bitField w 3 0 ≤ 4 := by omega
          simp only [operationOf] at ho
          repeat' split at ho
          all_goals first | (cases ho; done) | (clear ho; omega)
        | some j =>
          have ho' := operationOf_eq_some.1 ho
          simp only
          constructor
          · intro h3
            split at h3
            case isTrue hw =>
              cases h3
              exact ⟨ho'.1.symm, by rw [ho'.2]; rfl, by rw [ho'.2]; rfl, hw⟩
            · cases h3
          · rintro ⟨h3, h4, h5, h6⟩
            have hsw : sw = i.fields.sw := by
              cases sw <;> cases hi : i.fields.sw <;> simp_all [SampleWidth.code]
            subst hsw
            have : i = j := by
              have h7 := operationOf_eq_some.2 (⟨h3.symm, h5⟩ : i.opcode = _ ∧ i.fields = _)
              rw [ho] at h7
              exact (Option.some.inj h7).symm
            subst this
            rw [if_pos h6]

end Sys2Proof
end

