-- ==== Sys2Proof/Laws/Memory.lean ====
section
/-! SUPPORT. Sample memory: reading after writing, what a write leaves alone, and the canonical form. -/

namespace Sys2Proof.Machine

theorem lookupKey_insertKey_same {α : Type} (k : Nat) (v : α) (l : List (Nat × α)) :
    lookupKey k (insertKey k v l) = some v := by
  induction l with
  | nil => simp [insertKey, lookupKey]
  | cons p l ih =>
    obtain ⟨k', v'⟩ := p
    simp only [insertKey]
    split
    · simp [lookupKey]
    · split
      · simp [lookupKey]
      · simp [lookupKey, *]

theorem lookupKey_insertKey_ne {α : Type} {k k₂ : Nat} (v : α) (l : List (Nat × α)) (h : k₂ ≠ k) :
    lookupKey k₂ (insertKey k v l) = lookupKey k₂ l := by
  induction l with
  | nil => simp [insertKey, lookupKey, h]
  | cons p l ih =>
    obtain ⟨k', v'⟩ := p
    simp only [insertKey]
    split
    · simp [lookupKey, h]
    · split
      · subst_vars; simp [lookupKey, h]
      · simp [lookupKey, ih]

theorem mem_insertKey {α : Type} {k : Nat} {v : α} {l : List (Nat × α)} {c : Nat × α}
    (h : c ∈ insertKey k v l) : c = (k, v) ∨ c ∈ l := by
  induction l with
  | nil => simpa [insertKey] using h
  | cons p l ih =>
    obtain ⟨k', v'⟩ := p
    simp only [insertKey] at h
    split at h
    · simpa using h
    · split at h
      · simp at h ⊢; tauto
      · simp at h ⊢
        rcases h with h | h
        · exact .inr (.inl h)
        · rcases ih h with h | h <;> tauto

theorem insertKey_rising {α : Type} (k : Nat) (v : α) {l : List (Nat × α)}
    (h : l.Pairwise (fun c d => c.1 < d.1)) :
    (insertKey k v l).Pairwise (fun c d => c.1 < d.1) := by
  induction l with
  | nil => simp [insertKey]
  | cons p l ih =>
    obtain ⟨k', v'⟩ := p
    rw [List.pairwise_cons] at h
    simp only [insertKey]
    split
    case isTrue hk =>
      refine List.pairwise_cons.2 ⟨fun c hc => ?_, List.pairwise_cons.2 h⟩
      rcases List.mem_cons.1 hc with rfl | hc
      · exact hk
      · exact lt_trans hk (h.1 c hc)
    case isFalse hk =>
      split
      case isTrue he => subst he; exact List.pairwise_cons.2 h
      case isFalse he =>
        refine List.pairwise_cons.2 ⟨fun c hc => ?_, ih h.2⟩
        rcases mem_insertKey hc with rfl | hc
        · show k' < k; omega
        · exact h.1 c hc

/-! ## One byte -/

@[simp] theorem readByte_writeByte_same (m : List Host.Cell) (a : Nat) (b : Byte) :
    readByte (writeByte m a b) a = b := by
  simp [readByte, writeByte, lookupKey_insertKey_same]

theorem readByte_writeByte_ne {a a' : Nat} (m : List Host.Cell) (b : Byte) (h : a' ≠ a) :
    readByte (writeByte m a b) a' = readByte m a' := by
  simp [readByte, writeByte, lookupKey_insertKey_ne b m h]

theorem writeByte_wf {m : List Host.Cell} {a : Nat} (b : Byte) (hm : Memory.wf m)
    (ha : a < Config.addrSpace) : Memory.wf (writeByte m a b) := by
  refine ⟨insertKey_rising a b hm.1, fun c hc => ?_⟩
  rcases mem_insertKey hc with rfl | hc
  · exact ha
  · exact hm.2 c hc

/-! ## Multi-byte values -/

theorem memRead_lt (m : List Host.Cell) (n a : Nat) : memRead m a n < 256 ^ n := by
  induction n generalizing a with
  | zero => simp [memRead]
  | succ n ih =>
    have h1 := (readByte m a).isLt
    have h2 := ih (a + 1)
    simp only [memRead, pow_succ]
    norm_num at h1
    omega

theorem readByte_memWrite_outside {m : List Host.Cell} {a n x : Nat} (v : Nat)
    (h : x < a ∨ a + n ≤ x) : readByte (memWrite m a n v) x = readByte m x := by
  induction n generalizing m a v with
  | zero => rfl
  | succ n ih =>
    rw [memWrite, ih _ (by omega), readByte_writeByte_ne _ _ (by omega)]

theorem memRead_congr {m m' : List Host.Cell} {a n : Nat}
    (h : ∀ x, a ≤ x → x < a + n → readByte m' x = readByte m x) :
    memRead m' a n = memRead m a n := by
  induction n generalizing a with
  | zero => rfl
  | succ n ih =>
    rw [memRead, memRead, h a (by omega) (by omega), ih fun x h1 h2 => h x (by omega) (by omega)]

theorem memRead_memWrite_disjoint {m : List Host.Cell} {a b n k : Nat} (v : Nat)
    (h : b + k ≤ a ∨ a + n ≤ b) : memRead (memWrite m a n v) b k = memRead m b k :=
  memRead_congr fun _ _ _ => readByte_memWrite_outside v (by omega)

theorem memRead_memWrite_same (m : List Host.Cell) (a n v : Nat) :
    memRead (memWrite m a n v) a n = v % 256 ^ n := by
  induction n generalizing m a v with
  | zero => simp [memRead, Nat.mod_one]
  | succ n ih =>
    rw [memWrite, memRead, ih, readByte_memWrite_outside _ (by omega), readByte_writeByte_same]
    have h : (BitVec.ofNat 8 (v % 256)).toNat = v % 256 := by simp
    rw [h, pow_succ, Nat.mul_comm (256 ^ n) 256, Nat.mod_mul]

theorem memWrite_wf {m : List Host.Cell} {a n : Nat} (v : Nat) (hm : Memory.wf m)
    (ha : a + n ≤ Config.addrSpace) : Memory.wf (memWrite m a n v) := by
  induction n generalizing m a v with
  | zero => exact hm
  | succ n ih => exact ih _ (writeByte_wf _ hm (by omega)) (by omega)

theorem listed_writeByte {m : List Host.Cell} {a x : Nat} (b : Byte)
    (h : x = a ∨ (lookupKey x m).isSome) : (lookupKey x (writeByte m a b)).isSome := by
  by_cases hx : x = a
  · subst hx; simp [writeByte, lookupKey_insertKey_same]
  · rw [writeByte, lookupKey_insertKey_ne _ _ hx]; exact h.resolve_left hx

theorem listed_memWrite {m : List Host.Cell} {a n x : Nat} {v : Nat}
    (h : (a ≤ x ∧ x < a + n) ∨ (lookupKey x m).isSome) :
    (lookupKey x (memWrite m a n v)).isSome := by
  induction n generalizing m a v with
  | zero => exact h.resolve_left (by omega)
  | succ n ih =>
    apply ih
    by_cases hx : x = a
    · exact .inr (listed_writeByte _ (.inl hx))
    · rcases h with h | h
      · left; omega
      · exact .inr (listed_writeByte _ (.inr h))

/-! ## Byte strings -/

theorem readByte_storeBytes_outside {m : List Host.Cell} {a x : Nat} {bs : List Byte}
    (h : x < a ∨ a + bs.length ≤ x) : readByte (storeBytes m a bs) x = readByte m x := by
  induction bs generalizing m a with
  | nil => rfl
  | cons b bs ih =>
    simp only [List.length_cons] at h
    rw [storeBytes, ih (by omega), readByte_writeByte_ne _ _ (by omega)]

theorem readByte_storeBytes {m : List Host.Cell} {a k : Nat} {bs : List Byte} (h : k < bs.length) :
    readByte (storeBytes m a bs) (a + k) = bs[k] := by
  induction bs generalizing m a k with
  | nil => simp at h
  | cons b bs ih =>
    rw [storeBytes]
    cases k with
    | zero => rw [readByte_storeBytes_outside (by omega)]; simp
    | succ k =>
      have h' : k < bs.length := by simpa using h
      rw [show a + (k + 1) = a + 1 + k by omega, ih h']
      simp

theorem storeBytes_wf {m : List Host.Cell} {a : Nat} {bs : List Byte} (hm : Memory.wf m)
    (ha : a + bs.length ≤ Config.addrSpace) : Memory.wf (storeBytes m a bs) := by
  induction bs generalizing m a with
  | nil => exact hm
  | cons b bs ih =>
    simp only [List.length_cons] at ha
    exact ih (writeByte_wf _ hm (by omega)) (by omega)

theorem readByte_scramble_outside {m : List Host.Cell} {d x : Nat} {r : Region}
    (h : r.has x = false) : readByte (scramble d r m) x = readByte m x := by
  apply readByte_storeBytes_outside
  simp only [Region.has, Bool.and_eq_false_iff, decide_eq_false_iff_not] at h
  simp only [List.length_map, List.length_range]
  omega

theorem readByte_scramble {m : List Host.Cell} {d k : Nat} {r : Region} (h : r.lo + k < r.hi) :
    readByte (scramble d r m) (r.lo + k) = Config.freeByte (d + k) := by
  rw [scramble, readByte_storeBytes (by simp; omega)]
  simp

theorem scramble_wf {m : List Host.Cell} {d : Nat} {r : Region} (hm : Memory.wf m)
    (hr : r.hi ≤ Config.addrSpace) : Memory.wf (scramble d r m) := by
  by_cases h : r.lo ≤ r.hi
  · exact storeBytes_wf hm (by simp; omega)
  · have : r.hi - r.lo = 0 := by omega
    simp only [scramble, this, List.range_zero, List.map_nil]
    exact hm

end Sys2Proof.Machine
end

