-- ==== Sys2Proof/Laws/Regions.lean ====
section
/-! SUPPORT. Byte regions: what cutting leaves, and what it means that the platform backs a region. -/

namespace Sys2Proof.Machine

@[simp] theorem Region.has_iff (r : Region) (a : Nat) : r.has a = true ↔ r.lo ≤ a ∧ a < r.hi := by
  simp [Region.has]

theorem Region.has_false_iff (r : Region) (a : Nat) : r.has a = false ↔ a < r.lo ∨ r.hi ≤ a := by
  rw [← Bool.not_eq_true, Region.has_iff]; omega

@[simp] theorem anyHas_nil (a : Nat) : anyHas [] a = false := rfl

@[simp] theorem anyHas_cons (r : Region) (rs : List Region) (a : Nat) :
    anyHas (r :: rs) a = (r.has a || anyHas rs a) := rfl

@[simp] theorem anyHas_append (rs qs : List Region) (a : Nat) :
    anyHas (rs ++ qs) a = (anyHas rs a || anyHas qs a) := by simp [anyHas]

theorem anyHas_cut (c r : Region) (a : Nat) :
    anyHas (Region.cut c r) a = (r.has a && !c.has a) := by
  rw [Bool.eq_iff_iff]
  simp only [Region.cut]
  split <;> split <;>
    simp only [List.nil_append, List.append_nil, List.cons_append, anyHas_nil, anyHas_cons,
      Bool.or_eq_true, Bool.and_eq_true, Bool.not_eq_true', Region.has_iff, Region.has_false_iff,
      Bool.false_eq_true, or_false, false_iff] <;> omega

theorem anyHas_cutAll (c : Region) (rs : List Region) (a : Nat) :
    anyHas (cutAll c rs) a = (anyHas rs a && !c.has a) := by
  induction rs with
  | nil => rfl
  | cons r rs ih =>
    have h : cutAll c (r :: rs) = Region.cut c r ++ cutAll c rs := rfl
    rw [h, anyHas_append, ih, anyHas_cut, anyHas_cons]
    cases r.has a <;> cases anyHas rs a <;> cases c.has a <;> rfl

theorem anyHas_foldl_cutAll (ram rs : List Region) (a : Nat) :
    anyHas (ram.foldl (fun left c => cutAll c left) rs) a = (anyHas rs a && !anyHas ram a) := by
  induction ram generalizing rs with
  | nil => simp
  | cons c ram ih =>
    rw [List.foldl_cons, ih, anyHas_cutAll, anyHas_cons]
    cases anyHas rs a <;> cases anyHas ram a <;> cases c.has a <;> rfl

theorem anyHas_false_iff_empty (rs : List Region) :
    (rs.all fun q => decide (q.hi ≤ q.lo)) = true ↔ ∀ a, anyHas rs a = false := by
  induction rs with
  | nil => simp
  | cons r rs ih =>
    simp only [List.all_cons, Bool.and_eq_true, decide_eq_true_eq, ih, anyHas_cons,
      Bool.or_eq_false_iff, Region.has_false_iff]
    constructor
    · rintro ⟨h, hs⟩ a
      exact ⟨by omega, hs a⟩
    · intro h
      have := (h r.lo).1
      exact ⟨by omega, fun a => (h a).2⟩

/-- `backed` says of every byte that one of the platform's regions has it. -/
theorem backed_iff (ram : List Region) (r : Region) :
    backed ram r = true ↔ ∀ a, r.has a = true → anyHas ram a = true := by
  rw [backed, anyHas_false_iff_empty]
  refine forall_congr' fun a => ?_
  rw [anyHas_foldl_cutAll]
  simp only [anyHas_cons, anyHas_nil, Bool.or_false]
  cases r.has a <;> cases anyHas ram a <;> simp

theorem Region.meets_iff (r q : Region) :
    r.meets q = true ↔ ∃ a, r.has a = true ∧ q.has a = true := by
  simp only [Region.meets, decide_eq_true_eq, Region.has_iff]
  constructor
  · intro h; exact ⟨max r.lo q.lo, by omega, by omega⟩
  · rintro ⟨a, h1, h2⟩; omega

/-- Two regions that do not overlap by R241's inequality have no byte in common. -/
theorem Region.no_common_byte {r q : Region} (h : r.overlaps q = false) (a : Nat)
    (ha : r.has a = true) : q.has a = false := by
  simp only [Region.overlaps, Bool.and_eq_false_iff, decide_eq_false_iff_not] at h
  rw [Region.has_iff] at ha
  rw [Region.has_false_iff]
  omega

end Sys2Proof.Machine
end

