-- ==== Sys2Proof/Laws/Frames.lean ====
section
/-! SUPPORT. The engine's pass over its frames: each operation writes the samples 0, 1, ..., S_out - 1 of
a frame once, each frame lands in its slot, and nothing else of memory changes. -/

namespace Sys2Proof.Machine

/-! ## Nested loops as one loop -/

/-- A loop nest whose inner bound is `m` is one loop over `q = i * m + j`. -/
theorem flatMap_range_map {β : Type} (n m : Nat) (F : Nat → Nat → β) :
    ((List.range n).flatMap fun i => (List.range m).map fun j => F i j)
      = (List.range (n * m)).map fun q => F (q / m) (q % m) := by
  induction n with
  | zero => simp
  | succ n ih =>
    rw [List.range_succ, List.flatMap_append, ih, Nat.succ_mul, List.range_add, List.map_append]
    congr 1
    simp only [List.flatMap_cons, List.flatMap_nil, List.append_nil, List.map_map]
    refine List.map_congr_left fun j hj => ?_
    have hj : j < m := List.mem_range.1 hj
    have hm : 0 < m := by omega
    simp [Nat.mul_add_div hm, Nat.mul_comm n m, Nat.div_eq_of_lt hj, Nat.mod_eq_of_lt hj]

/-- The samples 0..n-1 of a frame, each with its value. -/
abbrev samplesOf (n : Nat) (v : Nat → Nat) : List (Nat × Nat) :=
  (List.range n).map fun q => (q, v q)

theorem grayPlane_eq (H W : Nat) (v : Nat → Nat → Nat) :
    grayPlane H W v = samplesOf (H * W) fun q => v (q / W) (q % W) := by
  rw [grayPlane, flatMap_range_map]
  refine List.map_congr_left fun q _ => ?_
  rw [Nat.mul_comm, Nat.div_add_mod]

theorem colorPlane_eq (H W : Nat) (v : Nat → Nat → Nat → Nat) :
    colorPlane H W v
      = samplesOf (3 * H * W) fun q => v (q / 3 / W) (q / 3 % W) (q % 3) := by
  have h : ∀ y, ((List.range W).flatMap fun x =>
      (List.range 3).map fun c => ((y * W + x) * 3 + c, v y x c))
      = (List.range (W * 3)).map fun q => ((y * W + q / 3) * 3 + q % 3, v y (q / 3) (q % 3)) :=
    fun y => flatMap_range_map W 3 _
  simp only [colorPlane, h]
  rw [flatMap_range_map]
  rw [show H * (W * 3) = 3 * H * W by ring]
  refine List.map_congr_left fun q hq => ?_
  have hq : q < 3 * H * W := List.mem_range.1 hq
  have h1 : q / (W * 3) = q / 3 / W := by rw [Nat.mul_comm, Nat.div_div_eq_div_mul]
  have h2 : q % (W * 3) / 3 = q / 3 % W := by rw [Nat.mul_comm, Nat.mod_mul_right_div_self]
  have h3 : q % (W * 3) % 3 = q % 3 := Nat.mod_mod_of_dvd _ (Dvd.intro_left W rfl)
  have h4 := Nat.div_add_mod (q / 3) W
  rw [h1, h2, h3, Nat.mul_comm (q / 3 / W) W, h4]
  simp only [Prod.mk.injEq, and_true]
  omega

theorem splitFrame_eq (pat : Pattern) (H W : Nat) (raw : Nat → Nat) :
    splitFrame pat H W raw
      = samplesOf (4 * (H / 2) * (W / 2)) fun q =>
          lattice pat W raw (q / (H / 2 * (W / 2))) (q % (H / 2 * (W / 2)) / (W / 2))
            (q % (H / 2 * (W / 2)) % (W / 2)) := by
  have h : ∀ p, ((List.range (H / 2)).flatMap fun i => (List.range (W / 2)).map fun j =>
      (p * (H / 2) * (W / 2) + i * (W / 2) + j, lattice pat W raw p i j))
      = (List.range (H / 2 * (W / 2))).map fun q =>
          (p * (H / 2) * (W / 2) + q / (W / 2) * (W / 2) + q % (W / 2),
            lattice pat W raw p (q / (W / 2)) (q % (W / 2))) :=
    fun p => flatMap_range_map _ _ _
  simp only [splitFrame, h]
  rw [flatMap_range_map, Nat.mul_assoc]
  refine List.map_congr_left fun q _ => ?_
  simp only [Prod.mk.injEq, and_true]
  have h1 := Nat.div_add_mod (q % (H / 2 * (W / 2))) (W / 2)
  have h2 := Nat.div_add_mod q (H / 2 * (W / 2))
  rw [Nat.add_assoc, Nat.mul_comm (_ / (W / 2)) (W / 2), h1, Nat.mul_assoc, Nat.mul_comm (q / _), h2]

theorem mergeFrame_eq (rnd : Rounding) (H W : Nat) (src : Nat → Nat) :
    mergeFrame rnd H W src
      = samplesOf (H / 2 * (W / 2)) fun q => merge rnd (src q) (src (H / 2 * (W / 2) + q)) := by
  rw [mergeFrame, flatMap_range_map]
  refine List.map_congr_left fun q _ => ?_
  have h1 := Nat.div_add_mod q (W / 2)
  rw [Nat.add_assoc, Nat.mul_comm (q / (W / 2)) (W / 2), h1]

/-! ## Every command at once -/

/-- The frame function each command's meaning gives the engine. -/
def frameOf (i : Instr) (H W : Nat) : (Nat → Nat) → List (Nat × Nat) :=
  match i with
  | .demosaic f => demosaicFrame f H W
  | .split f    => splitFrame f.pat H W
  | .gmerge f   => mergeFrame f.rnd H W
  | .upsample f => upsampleFrame (effectiveOrder f.alg) (maxSample f.sw) H W
  | .luma f     => lumaFrame (channels f.lch) H W

/-- A command's meaning is its two phases over its frame function. -/
theorem exec_eq_command (i : Instr) (s : State) :
    exec i s = command i (frameOf i (rows s) (cols s)) s := by
  cases i <;> rfl

/-- Sample q of a command's destination frame, from its source samples. -/
def outValue (i : Instr) (H W : Nat) (src : Nat → Nat) (q : Nat) : Nat :=
  match i with
  | .demosaic f =>
    match f.out with
    | .color => demosaicPlane f H W src (q / 3 / W) (q / 3 % W) (q % 3)
    | .gray =>
      luma (demosaicPlane f H W src (q / W) (q % W) 0) (demosaicPlane f H W src (q / W) (q % W) 1)
        (demosaicPlane f H W src (q / W) (q % W) 2)
  | .split f =>
    lattice f.pat W src (q / (H / 2 * (W / 2))) (q % (H / 2 * (W / 2)) / (W / 2))
      (q % (H / 2 * (W / 2)) % (W / 2))
  | .gmerge f => merge f.rnd (src q) (src (H / 2 * (W / 2) + q))
  | .upsample f =>
    upsample (effectiveOrder f.alg) (maxSample f.sw) (H / 2) (W / 2)
      (fun i j c => src ((i * (W / 2) + j) * 3 + c)) (q / 3 / W) (q / 3 % W) (q % 3)
  | .luma f => lumaPixel (channels f.lch) src ((q / W * W + q % W) * channels f.lch)

/-- Every command writes the samples 0..S_out-1 of a destination frame, each once (R64, R72). -/
theorem frameOf_eq (i : Instr) (H W : Nat) (src : Nat → Nat) :
    frameOf i H W src = samplesOf (samplesOut i H W) (outValue i H W src) := by
  cases i with
  | demosaic f =>
    cases hf : f.out <;>
      simp only [frameOf, demosaicFrame, samplesOut, hf, colorPlane_eq, grayPlane_eq, reduceCtorEq,
        if_true, if_false] <;>
      (congr 1; funext q; simp only [outValue, hf])
  | split f => exact splitFrame_eq ..
  | gmerge f => exact mergeFrame_eq ..
  | upsample f => exact colorPlane_eq ..
  | luma f => exact grayPlane_eq ..

/-! ## Storing a frame -/

theorem bytesPer_pos (sw : SampleWidth) : 0 < bytesPer sw := by cases sw <;> decide

theorem maxSample_eq (sw : SampleWidth) : maxSample sw = 256 ^ bytesPer sw - 1 := by
  cases sw <;> rfl

theorem sampleAt_le (m : List Host.Cell) (sw : SampleWidth) (base k : Nat) :
    sampleAt m sw base k ≤ maxSample sw := by
  have h := memRead_lt m (bytesPer sw) (base + k * bytesPer sw)
  rw [maxSample_eq, sampleAt]
  omega

theorem readByte_putSample_outside {m : List Host.Cell} {sw : SampleWidth} {base k x : Nat} (v : Nat)
    (h : x < base + k * bytesPer sw ∨ base + (k + 1) * bytesPer sw ≤ x) :
    readByte (putSample m sw base k v) x = readByte m x := by
  apply readByte_memWrite_outside
  rw [Nat.succ_mul] at h
  omega

theorem sampleAt_putSample_same (m : List Host.Cell) (sw : SampleWidth) (base k v : Nat) :
    sampleAt (putSample m sw base k v) sw base k = v % (maxSample sw + 1) := by
  rw [sampleAt, putSample, memRead_memWrite_same, maxSample_eq]
  congr 1
  have : 0 < 256 ^ bytesPer sw := by positivity
  omega

theorem sampleAt_congr {m m' : List Host.Cell} {sw : SampleWidth} {base k : Nat}
    (h : ∀ x, base + k * bytesPer sw ≤ x → x < base + (k + 1) * bytesPer sw →
      readByte m' x = readByte m x) : sampleAt m' sw base k = sampleAt m sw base k := by
  apply memRead_congr
  intro x h1 h2
  exact h x h1 (by rw [Nat.succ_mul]; omega)

theorem sampleAt_putSample_ne {m : List Host.Cell} {sw : SampleWidth} {base k q : Nat} (v : Nat)
    (h : q ≠ k) : sampleAt (putSample m sw base k v) sw base q = sampleAt m sw base q := by
  apply sampleAt_congr
  intro x h1 h2
  apply readByte_putSample_outside
  rcases Nat.lt_or_gt_of_ne h with h | h
  · have := Nat.mul_le_mul_right (bytesPer sw) (show q + 1 ≤ k by omega)
    omega
  · have := Nat.mul_le_mul_right (bytesPer sw) (show k + 1 ≤ q by omega)
    omega

theorem storeFrame_succ (sw : SampleWidth) (base n : Nat) (v : Nat → Nat) (m : List Host.Cell) :
    storeFrame sw base (samplesOf (n + 1) v) m
      = putSample (storeFrame sw base (samplesOf n v) m) sw base n (v n) := by
  simp [storeFrame, samplesOf, List.range_succ]

theorem readByte_storeFrame_outside {sw : SampleWidth} {base n x : Nat} {v : Nat → Nat}
    {m : List Host.Cell} (h : x < base ∨ base + n * bytesPer sw ≤ x) :
    readByte (storeFrame sw base (samplesOf n v) m) x = readByte m x := by
  induction n with
  | zero => rfl
  | succ n ih =>
    rw [Nat.succ_mul] at h
    rw [storeFrame_succ, readByte_putSample_outside _ (by rw [Nat.succ_mul]; omega), ih (by omega)]

theorem sampleAt_storeFrame {sw : SampleWidth} {base n q : Nat} {v : Nat → Nat}
    {m : List Host.Cell} (h : q < n) :
    sampleAt (storeFrame sw base (samplesOf n v) m) sw base q = v q % (maxSample sw + 1) := by
  induction n with
  | zero => omega
  | succ n ih =>
    rw [storeFrame_succ]
    by_cases hq : q = n
    · subst hq; exact sampleAt_putSample_same ..
    · rw [sampleAt_putSample_ne _ hq, ih (by omega)]

theorem storeFrame_wf {sw : SampleWidth} {base n : Nat} {v : Nat → Nat} {m : List Host.Cell}
    (hm : Memory.wf m) (hb : base + n * bytesPer sw ≤ Config.addrSpace) :
    Memory.wf (storeFrame sw base (samplesOf n v) m) := by
  induction n with
  | zero => exact hm
  | succ n ih =>
    rw [Nat.succ_mul] at hb
    rw [storeFrame_succ]
    exact memWrite_wf _ (ih (by omega)) (by omega)

theorem listed_storeFrame {sw : SampleWidth} {base n x : Nat} {v : Nat → Nat} {m : List Host.Cell}
    (h : (base ≤ x ∧ x < base + n * bytesPer sw) ∨ (lookupKey x m).isSome) :
    (lookupKey x (storeFrame sw base (samplesOf n v) m)).isSome := by
  induction n with
  | zero => exact h.resolve_left (by omega)
  | succ n ih =>
    rw [storeFrame_succ]
    apply listed_memWrite
    by_cases hx : base + n * bytesPer sw ≤ x ∧ x < base + (n + 1) * bytesPer sw
    · left; rw [Nat.succ_mul] at hx; omega
    · right; apply ih; rw [Nat.succ_mul] at *; rcases h with h | h
      · left; omega
      · exact .inr h

/-! ## All frames -/

/-- Memory after the first n frames. -/
def framesDone (i : Instr) (s : State) (n : Nat) : List Host.Cell :=
  (List.range n).foldl
    (fun m k =>
      storeFrame i.fields.sw (dstFrame i s k)
        (frameOf i (rows s) (cols s) (sampleAt s.mem i.fields.sw (srcFrame i s k))) m)
    s.mem

theorem runFrames_eq (i : Instr) (s : State) :
    runFrames i (frameOf i (rows s) (cols s)) s = framesDone i s (frameCount i s) := rfl

theorem framesDone_succ (i : Instr) (s : State) (n : Nat) :
    framesDone i s (n + 1)
      = storeFrame i.fields.sw (dstFrame i s n)
          (samplesOf (samplesOut i (rows s) (cols s))
            (outValue i (rows s) (cols s) (sampleAt s.mem i.fields.sw (srcFrame i s n))))
          (framesDone i s n) := by
  rw [framesDone, List.range_succ, List.foldl_append]
  simp only [List.foldl_cons, List.foldl_nil]
  rw [frameOf_eq]
  rfl

theorem dstFrame_succ (i : Instr) (s : State) (k : Nat) :
    dstFrame i s (k + 1)
      = dstFrame i s k + samplesOut i (rows s) (cols s) * bytesPer i.fields.sw := by
  simp only [dstFrame, frameBytesOut, Nat.succ_mul]
  omega

theorem dstFrame_mono (i : Instr) (s : State) {k n : Nat} (h : k ≤ n) :
    dstFrame i s k ≤ dstFrame i s n :=
  Nat.add_le_add_left (Nat.mul_le_mul_right _ h) _

theorem readByte_framesDone_outside {i : Instr} {s : State} {n x : Nat}
    (h : x < s.dstBase.toNat ∨ dstFrame i s n ≤ x) :
    readByte (framesDone i s n) x = readByte s.mem x := by
  induction n with
  | zero => rfl
  | succ n ih =>
    have h1 : s.dstBase.toNat ≤ dstFrame i s n := Nat.le_add_right ..
    rw [dstFrame_succ] at h
    rw [framesDone_succ, readByte_storeFrame_outside (by omega), ih (by omega)]

/-- Sample q of destination frame k after all frames. -/
theorem sampleAt_framesDone {i : Instr} {s : State} {n k q : Nat} (hk : k < n)
    (hq : q < samplesOut i (rows s) (cols s)) :
    sampleAt (framesDone i s n) i.fields.sw (dstFrame i s k) q
      = outValue i (rows s) (cols s) (sampleAt s.mem i.fields.sw (srcFrame i s k)) q
          % (maxSample i.fields.sw + 1) := by
  induction n with
  | zero => omega
  | succ n ih =>
    rw [framesDone_succ]
    by_cases h : k = n
    · subst h; exact sampleAt_storeFrame hq
    · rw [← ih (by omega)]
      apply sampleAt_congr
      intro x _ h2
      apply readByte_storeFrame_outside
      have h3 := dstFrame_mono i s (show k + 1 ≤ n by omega)
      have h4 := Nat.mul_le_mul_right (bytesPer i.fields.sw) (show q + 1 ≤ _ from hq)
      rw [dstFrame_succ] at h3
      left
      omega

/-- Every byte of the first n destination frames has been written (R72). -/
theorem listed_framesDone {i : Instr} {s : State} {n x : Nat} (h1 : s.dstBase.toNat ≤ x)
    (h2 : x < dstFrame i s n) : (lookupKey x (framesDone i s n)).isSome := by
  induction n with
  | zero => simp only [dstFrame, Nat.zero_mul] at h2; omega
  | succ n ih =>
    rw [framesDone_succ]
    apply listed_storeFrame
    rw [dstFrame_succ] at h2
    by_cases h : x < dstFrame i s n
    · exact .inr (ih h)
    · left; omega

theorem framesDone_wf {i : Instr} {s : State} {n : Nat} (hm : Memory.wf s.mem)
    (hn : dstFrame i s n ≤ Config.addrSpace) : Memory.wf (framesDone i s n) := by
  induction n with
  | zero => exact hm
  | succ n ih =>
    have h := dstFrame_mono i s (show n ≤ n + 1 by omega)
    rw [framesDone_succ]
    rw [dstFrame_succ] at hn
    exact storeFrame_wf (ih (by omega)) hn

theorem dstRange_hi (i : Instr) (s : State) : (dstRange i s).hi = dstFrame i s (frameCount i s) := rfl

end Sys2Proof.Machine
end

