-- ==== Sys2Proof/Laws/State.lean ====
section
/-! SUPPORT. One lemma for each field after each named update of the state, so that no proof unfolds a
record update. -/

namespace Sys2Proof.Machine

/-! ## recordError -/

@[simp] theorem recordError_irqEn (e : ErrCode) (s : State) :
    (recordError e s).irqEn = s.irqEn := rfl
@[simp] theorem recordError_busy (e : ErrCode) (s : State) : (recordError e s).busy = s.busy := rfl
@[simp] theorem recordError_done (e : ErrCode) (s : State) : (recordError e s).done = false := rfl
@[simp] theorem recordError_err (e : ErrCode) (s : State) : (recordError e s).err = true := rfl
@[simp] theorem recordError_warn (e : ErrCode) (s : State) : (recordError e s).warn = false := rfl
@[simp] theorem recordError_errCode (e : ErrCode) (s : State) :
    (recordError e s).errCode = e.code := rfl
@[simp] theorem recordError_warnCode (e : ErrCode) (s : State) :
    (recordError e s).warnCode = 0#4 := rfl
@[simp] theorem recordError_cmd (e : ErrCode) (s : State) : (recordError e s).cmd = s.cmd := rfl
@[simp] theorem recordError_height (e : ErrCode) (s : State) :
    (recordError e s).height = s.height := rfl
@[simp] theorem recordError_width (e : ErrCode) (s : State) :
    (recordError e s).width = s.width := rfl
@[simp] theorem recordError_count (e : ErrCode) (s : State) :
    (recordError e s).count = s.count := rfl
@[simp] theorem recordError_srcBase (e : ErrCode) (s : State) :
    (recordError e s).srcBase = s.srcBase := rfl
@[simp] theorem recordError_dstBase (e : ErrCode) (s : State) :
    (recordError e s).dstBase = s.dstBase := rfl
@[simp] theorem recordError_resetHeld (e : ErrCode) (s : State) :
    (recordError e s).resetHeld = s.resetHeld := rfl
@[simp] theorem recordError_mem (e : ErrCode) (s : State) : (recordError e s).mem = s.mem := rfl
@[simp] theorem recordError_ram (e : ErrCode) (s : State) : (recordError e s).ram = s.ram := rfl
@[simp] theorem recordError_fresh (e : ErrCode) (s : State) :
    (recordError e s).fresh = s.fresh := rfl
@[simp] theorem recordError_stale (e : ErrCode) (s : State) :
    (recordError e s).stale = s.stale := rfl
@[simp] theorem recordError_draws (e : ErrCode) (s : State) :
    (recordError e s).draws = s.draws := rfl
@[simp] theorem recordError_sched (e : ErrCode) (s : State) :
    (recordError e s).sched = s.sched := rfl
@[simp] theorem recordError_prog (e : ErrCode) (s : State) : (recordError e s).prog = s.prog := rfl
@[simp] theorem recordError_hostPc (e : ErrCode) (s : State) :
    (recordError e s).hostPc = s.hostPc := rfl
@[simp] theorem recordError_temps (e : ErrCode) (s : State) :
    (recordError e s).temps = s.temps := rfl
@[simp] theorem recordError_lists (e : ErrCode) (s : State) :
    (recordError e s).lists = s.lists := rfl

/-! ## recordAccept -/

@[simp] theorem recordAccept_irqEn (w : Bool) (s : State) :
    (recordAccept w s).irqEn = s.irqEn := rfl
@[simp] theorem recordAccept_busy (w : Bool) (s : State) : (recordAccept w s).busy = true := rfl
@[simp] theorem recordAccept_done (w : Bool) (s : State) : (recordAccept w s).done = false := rfl
@[simp] theorem recordAccept_err (w : Bool) (s : State) : (recordAccept w s).err = false := rfl
@[simp] theorem recordAccept_warn (w : Bool) (s : State) : (recordAccept w s).warn = w := rfl
@[simp] theorem recordAccept_errCode (w : Bool) (s : State) :
    (recordAccept w s).errCode = 0#4 := rfl
@[simp] theorem recordAccept_warnCode (w : Bool) (s : State) :
    (recordAccept w s).warnCode = if w then 1#4 else 0#4 := rfl
@[simp] theorem recordAccept_cmd (w : Bool) (s : State) : (recordAccept w s).cmd = s.cmd := rfl
@[simp] theorem recordAccept_height (w : Bool) (s : State) :
    (recordAccept w s).height = s.height := rfl
@[simp] theorem recordAccept_width (w : Bool) (s : State) :
    (recordAccept w s).width = s.width := rfl
@[simp] theorem recordAccept_count (w : Bool) (s : State) :
    (recordAccept w s).count = s.count := rfl
@[simp] theorem recordAccept_srcBase (w : Bool) (s : State) :
    (recordAccept w s).srcBase = s.srcBase := rfl
@[simp] theorem recordAccept_dstBase (w : Bool) (s : State) :
    (recordAccept w s).dstBase = s.dstBase := rfl
@[simp] theorem recordAccept_resetHeld (w : Bool) (s : State) :
    (recordAccept w s).resetHeld = s.resetHeld := rfl
@[simp] theorem recordAccept_mem (w : Bool) (s : State) : (recordAccept w s).mem = s.mem := rfl
@[simp] theorem recordAccept_ram (w : Bool) (s : State) : (recordAccept w s).ram = s.ram := rfl
@[simp] theorem recordAccept_fresh (w : Bool) (s : State) :
    (recordAccept w s).fresh = s.fresh := rfl
@[simp] theorem recordAccept_stale (w : Bool) (s : State) :
    (recordAccept w s).stale = s.stale := rfl
@[simp] theorem recordAccept_draws (w : Bool) (s : State) :
    (recordAccept w s).draws = s.draws := rfl
@[simp] theorem recordAccept_sched (w : Bool) (s : State) :
    (recordAccept w s).sched = s.sched := rfl
@[simp] theorem recordAccept_prog (w : Bool) (s : State) : (recordAccept w s).prog = s.prog := rfl
@[simp] theorem recordAccept_hostPc (w : Bool) (s : State) :
    (recordAccept w s).hostPc = s.hostPc := rfl
@[simp] theorem recordAccept_temps (w : Bool) (s : State) :
    (recordAccept w s).temps = s.temps := rfl
@[simp] theorem recordAccept_lists (w : Bool) (s : State) :
    (recordAccept w s).lists = s.lists := rfl

/-! ## complete -/

@[simp] theorem complete_irqEn (r : Region) (m : List Host.Cell) (s : State) :
    (complete r m s).irqEn = s.irqEn := rfl
@[simp] theorem complete_busy (r : Region) (m : List Host.Cell) (s : State) :
    (complete r m s).busy = false := rfl
@[simp] theorem complete_done (r : Region) (m : List Host.Cell) (s : State) :
    (complete r m s).done = true := rfl
@[simp] theorem complete_err (r : Region) (m : List Host.Cell) (s : State) :
    (complete r m s).err = s.err := rfl
@[simp] theorem complete_warn (r : Region) (m : List Host.Cell) (s : State) :
    (complete r m s).warn = s.warn := rfl
@[simp] theorem complete_errCode (r : Region) (m : List Host.Cell) (s : State) :
    (complete r m s).errCode = s.errCode := rfl
@[simp] theorem complete_warnCode (r : Region) (m : List Host.Cell) (s : State) :
    (complete r m s).warnCode = s.warnCode := rfl
@[simp] theorem complete_cmd (r : Region) (m : List Host.Cell) (s : State) :
    (complete r m s).cmd = s.cmd := rfl
@[simp] theorem complete_height (r : Region) (m : List Host.Cell) (s : State) :
    (complete r m s).height = s.height := rfl
@[simp] theorem complete_width (r : Region) (m : List Host.Cell) (s : State) :
    (complete r m s).width = s.width := rfl
@[simp] theorem complete_count (r : Region) (m : List Host.Cell) (s : State) :
    (complete r m s).count = s.count := rfl
@[simp] theorem complete_srcBase (r : Region) (m : List Host.Cell) (s : State) :
    (complete r m s).srcBase = s.srcBase := rfl
@[simp] theorem complete_dstBase (r : Region) (m : List Host.Cell) (s : State) :
    (complete r m s).dstBase = s.dstBase := rfl
@[simp] theorem complete_resetHeld (r : Region) (m : List Host.Cell) (s : State) :
    (complete r m s).resetHeld = s.resetHeld := rfl
@[simp] theorem complete_mem (r : Region) (m : List Host.Cell) (s : State) :
    (complete r m s).mem = m := rfl
@[simp] theorem complete_ram (r : Region) (m : List Host.Cell) (s : State) :
    (complete r m s).ram = s.ram := rfl
@[simp] theorem complete_fresh (r : Region) (m : List Host.Cell) (s : State) :
    (complete r m s).fresh = [r] := rfl
@[simp] theorem complete_stale (r : Region) (m : List Host.Cell) (s : State) :
    (complete r m s).stale = cutAll r (s.fresh ++ s.stale) := rfl
@[simp] theorem complete_draws (r : Region) (m : List Host.Cell) (s : State) :
    (complete r m s).draws = s.draws := rfl
@[simp] theorem complete_sched (r : Region) (m : List Host.Cell) (s : State) :
    (complete r m s).sched = s.sched := rfl
@[simp] theorem complete_prog (r : Region) (m : List Host.Cell) (s : State) :
    (complete r m s).prog = s.prog := rfl
@[simp] theorem complete_hostPc (r : Region) (m : List Host.Cell) (s : State) :
    (complete r m s).hostPc = s.hostPc := rfl
@[simp] theorem complete_temps (r : Region) (m : List Host.Cell) (s : State) :
    (complete r m s).temps = s.temps := rfl
@[simp] theorem complete_lists (r : Region) (m : List Host.Cell) (s : State) :
    (complete r m s).lists = s.lists := rfl

/-! ## clearStatus -/

@[simp] theorem clearStatus_irqEn (v : Word) (s : State) : (clearStatus v s).irqEn = s.irqEn := rfl
@[simp] theorem clearStatus_busy (v : Word) (s : State) : (clearStatus v s).busy = s.busy := rfl
@[simp] theorem clearStatus_done (v : Word) (s : State) :
    (clearStatus v s).done = (s.done && !v.getLsbD 1) := rfl
@[simp] theorem clearStatus_err (v : Word) (s : State) :
    (clearStatus v s).err = (s.err && !v.getLsbD 2) := rfl
@[simp] theorem clearStatus_warn (v : Word) (s : State) :
    (clearStatus v s).warn = (s.warn && !v.getLsbD 3) := rfl
@[simp] theorem clearStatus_errCode (v : Word) (s : State) :
    (clearStatus v s).errCode = if v.getLsbD 2 then 0#4 else s.errCode := rfl
@[simp] theorem clearStatus_warnCode (v : Word) (s : State) :
    (clearStatus v s).warnCode = if v.getLsbD 3 then 0#4 else s.warnCode := rfl
@[simp] theorem clearStatus_cmd (v : Word) (s : State) : (clearStatus v s).cmd = s.cmd := rfl
@[simp] theorem clearStatus_height (v : Word) (s : State) :
    (clearStatus v s).height = s.height := rfl
@[simp] theorem clearStatus_width (v : Word) (s : State) : (clearStatus v s).width = s.width := rfl
@[simp] theorem clearStatus_count (v : Word) (s : State) : (clearStatus v s).count = s.count := rfl
@[simp] theorem clearStatus_srcBase (v : Word) (s : State) :
    (clearStatus v s).srcBase = s.srcBase := rfl
@[simp] theorem clearStatus_dstBase (v : Word) (s : State) :
    (clearStatus v s).dstBase = s.dstBase := rfl
@[simp] theorem clearStatus_resetHeld (v : Word) (s : State) :
    (clearStatus v s).resetHeld = s.resetHeld := rfl
@[simp] theorem clearStatus_mem (v : Word) (s : State) : (clearStatus v s).mem = s.mem := rfl
@[simp] theorem clearStatus_ram (v : Word) (s : State) : (clearStatus v s).ram = s.ram := rfl
@[simp] theorem clearStatus_fresh (v : Word) (s : State) : (clearStatus v s).fresh = s.fresh := rfl
@[simp] theorem clearStatus_stale (v : Word) (s : State) : (clearStatus v s).stale = s.stale := rfl
@[simp] theorem clearStatus_draws (v : Word) (s : State) : (clearStatus v s).draws = s.draws := rfl
@[simp] theorem clearStatus_sched (v : Word) (s : State) : (clearStatus v s).sched = s.sched := rfl
@[simp] theorem clearStatus_prog (v : Word) (s : State) : (clearStatus v s).prog = s.prog := rfl
@[simp] theorem clearStatus_hostPc (v : Word) (s : State) :
    (clearStatus v s).hostPc = s.hostPc := rfl
@[simp] theorem clearStatus_temps (v : Word) (s : State) : (clearStatus v s).temps = s.temps := rfl
@[simp] theorem clearStatus_lists (v : Word) (s : State) : (clearStatus v s).lists = s.lists := rfl

/-! ## resetRegisters -/

@[simp] theorem resetRegisters_irqEn (s : State) : (resetRegisters s).irqEn = false := rfl
@[simp] theorem resetRegisters_busy (s : State) : (resetRegisters s).busy = false := rfl
@[simp] theorem resetRegisters_done (s : State) : (resetRegisters s).done = false := rfl
@[simp] theorem resetRegisters_err (s : State) : (resetRegisters s).err = false := rfl
@[simp] theorem resetRegisters_warn (s : State) : (resetRegisters s).warn = false := rfl
@[simp] theorem resetRegisters_errCode (s : State) : (resetRegisters s).errCode = 0#4 := rfl
@[simp] theorem resetRegisters_warnCode (s : State) : (resetRegisters s).warnCode = 0#4 := rfl
@[simp] theorem resetRegisters_cmd (s : State) : (resetRegisters s).cmd = 0#32 := rfl
@[simp] theorem resetRegisters_height (s : State) : (resetRegisters s).height = 0#16 := rfl
@[simp] theorem resetRegisters_width (s : State) : (resetRegisters s).width = 0#16 := rfl
@[simp] theorem resetRegisters_count (s : State) : (resetRegisters s).count = 0#16 := rfl
@[simp] theorem resetRegisters_srcBase (s : State) : (resetRegisters s).srcBase = 0#32 := rfl
@[simp] theorem resetRegisters_dstBase (s : State) : (resetRegisters s).dstBase = 0#32 := rfl
@[simp] theorem resetRegisters_resetHeld (s : State) :
    (resetRegisters s).resetHeld = s.resetHeld := rfl
@[simp] theorem resetRegisters_mem (s : State) : (resetRegisters s).mem = s.mem := rfl
@[simp] theorem resetRegisters_ram (s : State) : (resetRegisters s).ram = s.ram := rfl
@[simp] theorem resetRegisters_fresh (s : State) : (resetRegisters s).fresh = s.fresh := rfl
@[simp] theorem resetRegisters_stale (s : State) : (resetRegisters s).stale = s.stale := rfl
@[simp] theorem resetRegisters_draws (s : State) : (resetRegisters s).draws = s.draws := rfl
@[simp] theorem resetRegisters_sched (s : State) : (resetRegisters s).sched = s.sched := rfl
@[simp] theorem resetRegisters_prog (s : State) : (resetRegisters s).prog = s.prog := rfl
@[simp] theorem resetRegisters_hostPc (s : State) : (resetRegisters s).hostPc = s.hostPc := rfl
@[simp] theorem resetRegisters_temps (s : State) : (resetRegisters s).temps = s.temps := rfl
@[simp] theorem resetRegisters_lists (s : State) : (resetRegisters s).lists = s.lists := rfl

/-! ## releaseReset -/

@[simp] theorem releaseReset_irqEn (s : State) : (releaseReset s).irqEn = s.irqEn := rfl
@[simp] theorem releaseReset_busy (s : State) : (releaseReset s).busy = s.busy := rfl
@[simp] theorem releaseReset_done (s : State) : (releaseReset s).done = s.done := rfl
@[simp] theorem releaseReset_err (s : State) : (releaseReset s).err = s.err := rfl
@[simp] theorem releaseReset_warn (s : State) : (releaseReset s).warn = s.warn := rfl
@[simp] theorem releaseReset_errCode (s : State) : (releaseReset s).errCode = s.errCode := rfl
@[simp] theorem releaseReset_warnCode (s : State) : (releaseReset s).warnCode = s.warnCode := rfl
@[simp] theorem releaseReset_cmd (s : State) : (releaseReset s).cmd = s.cmd := rfl
@[simp] theorem releaseReset_height (s : State) : (releaseReset s).height = s.height := rfl
@[simp] theorem releaseReset_width (s : State) : (releaseReset s).width = s.width := rfl
@[simp] theorem releaseReset_count (s : State) : (releaseReset s).count = s.count := rfl
@[simp] theorem releaseReset_srcBase (s : State) : (releaseReset s).srcBase = s.srcBase := rfl
@[simp] theorem releaseReset_dstBase (s : State) : (releaseReset s).dstBase = s.dstBase := rfl
@[simp] theorem releaseReset_resetHeld (s : State) : (releaseReset s).resetHeld = false := rfl
@[simp] theorem releaseReset_mem (s : State) : (releaseReset s).mem = s.mem := rfl
@[simp] theorem releaseReset_ram (s : State) : (releaseReset s).ram = s.ram := rfl
@[simp] theorem releaseReset_fresh (s : State) : (releaseReset s).fresh = s.fresh := rfl
@[simp] theorem releaseReset_stale (s : State) : (releaseReset s).stale = s.stale := rfl
@[simp] theorem releaseReset_draws (s : State) : (releaseReset s).draws = s.draws := rfl
@[simp] theorem releaseReset_sched (s : State) : (releaseReset s).sched = s.sched := rfl
@[simp] theorem releaseReset_prog (s : State) : (releaseReset s).prog = s.prog := rfl
@[simp] theorem releaseReset_hostPc (s : State) : (releaseReset s).hostPc = s.hostPc := rfl
@[simp] theorem releaseReset_temps (s : State) : (releaseReset s).temps = s.temps := rfl
@[simp] theorem releaseReset_lists (s : State) : (releaseReset s).lists = s.lists := rfl

/-! ## advance -/

@[simp] theorem advance_irqEn (s : State) : (advance s).irqEn = s.irqEn := rfl
@[simp] theorem advance_busy (s : State) : (advance s).busy = s.busy := rfl
@[simp] theorem advance_done (s : State) : (advance s).done = s.done := rfl
@[simp] theorem advance_err (s : State) : (advance s).err = s.err := rfl
@[simp] theorem advance_warn (s : State) : (advance s).warn = s.warn := rfl
@[simp] theorem advance_errCode (s : State) : (advance s).errCode = s.errCode := rfl
@[simp] theorem advance_warnCode (s : State) : (advance s).warnCode = s.warnCode := rfl
@[simp] theorem advance_cmd (s : State) : (advance s).cmd = s.cmd := rfl
@[simp] theorem advance_height (s : State) : (advance s).height = s.height := rfl
@[simp] theorem advance_width (s : State) : (advance s).width = s.width := rfl
@[simp] theorem advance_count (s : State) : (advance s).count = s.count := rfl
@[simp] theorem advance_srcBase (s : State) : (advance s).srcBase = s.srcBase := rfl
@[simp] theorem advance_dstBase (s : State) : (advance s).dstBase = s.dstBase := rfl
@[simp] theorem advance_resetHeld (s : State) : (advance s).resetHeld = s.resetHeld := rfl
@[simp] theorem advance_mem (s : State) : (advance s).mem = s.mem := rfl
@[simp] theorem advance_ram (s : State) : (advance s).ram = s.ram := rfl
@[simp] theorem advance_fresh (s : State) : (advance s).fresh = s.fresh := rfl
@[simp] theorem advance_stale (s : State) : (advance s).stale = s.stale := rfl
@[simp] theorem advance_draws (s : State) : (advance s).draws = s.draws := rfl
@[simp] theorem advance_sched (s : State) : (advance s).sched = s.sched := rfl
@[simp] theorem advance_prog (s : State) : (advance s).prog = s.prog := rfl
@[simp] theorem advance_hostPc (s : State) : (advance s).hostPc = s.hostPc + 1 := rfl
@[simp] theorem advance_temps (s : State) : (advance s).temps = s.temps := rfl
@[simp] theorem advance_lists (s : State) : (advance s).lists = s.lists := rfl

/-! ## loadCommand -/

@[simp] theorem loadCommand_irqEn (w : Word) (s : State) : (loadCommand w s).irqEn = s.irqEn := rfl
@[simp] theorem loadCommand_busy (w : Word) (s : State) : (loadCommand w s).busy = false := rfl
@[simp] theorem loadCommand_done (w : Word) (s : State) : (loadCommand w s).done = s.done := rfl
@[simp] theorem loadCommand_err (w : Word) (s : State) : (loadCommand w s).err = s.err := rfl
@[simp] theorem loadCommand_warn (w : Word) (s : State) : (loadCommand w s).warn = s.warn := rfl
@[simp] theorem loadCommand_errCode (w : Word) (s : State) :
    (loadCommand w s).errCode = s.errCode := rfl
@[simp] theorem loadCommand_warnCode (w : Word) (s : State) :
    (loadCommand w s).warnCode = s.warnCode := rfl
@[simp] theorem loadCommand_cmd (w : Word) (s : State) : (loadCommand w s).cmd = w := rfl
@[simp] theorem loadCommand_height (w : Word) (s : State) :
    (loadCommand w s).height = s.height := rfl
@[simp] theorem loadCommand_width (w : Word) (s : State) : (loadCommand w s).width = s.width := rfl
@[simp] theorem loadCommand_count (w : Word) (s : State) : (loadCommand w s).count = s.count := rfl
@[simp] theorem loadCommand_srcBase (w : Word) (s : State) :
    (loadCommand w s).srcBase = s.srcBase := rfl
@[simp] theorem loadCommand_dstBase (w : Word) (s : State) :
    (loadCommand w s).dstBase = s.dstBase := rfl
@[simp] theorem loadCommand_resetHeld (w : Word) (s : State) :
    (loadCommand w s).resetHeld = false := rfl
@[simp] theorem loadCommand_mem (w : Word) (s : State) : (loadCommand w s).mem = s.mem := rfl
@[simp] theorem loadCommand_ram (w : Word) (s : State) : (loadCommand w s).ram = s.ram := rfl
@[simp] theorem loadCommand_fresh (w : Word) (s : State) : (loadCommand w s).fresh = s.fresh := rfl
@[simp] theorem loadCommand_stale (w : Word) (s : State) : (loadCommand w s).stale = s.stale := rfl
@[simp] theorem loadCommand_draws (w : Word) (s : State) : (loadCommand w s).draws = s.draws := rfl
@[simp] theorem loadCommand_sched (w : Word) (s : State) :
    (loadCommand w s).sched = .host :: s.sched := rfl
@[simp] theorem loadCommand_prog (w : Word) (s : State) :
    (loadCommand w s).prog = [.wr .word 0x04 (if s.irqEn then 0x3#32 else 0x1#32)] := rfl
@[simp] theorem loadCommand_hostPc (w : Word) (s : State) : (loadCommand w s).hostPc = 0 := rfl
@[simp] theorem loadCommand_temps (w : Word) (s : State) : (loadCommand w s).temps = s.temps := rfl
@[simp] theorem loadCommand_lists (w : Word) (s : State) : (loadCommand w s).lists = s.lists := rfl

end Sys2Proof.Machine
end

