-- ==== Sys2Proof/Laws/Exec.lean ====
section
/-! SUPPORT. What a command's checks say once they pass, and everything `exec` can answer. -/

namespace Sys2Proof.Machine

/-! ## The checks of a START -/

theorem validateCommand_none_iff (i : Instr) (s : State) :
    validateCommand i s = none ↔
      (rows s ≠ 0 ∧ cols s ≠ 0 ∧ frameCount i s ≠ 0) ∧ shapeViolation i s = false
      ∧ ¬ (i.fields.sw = .u16 ∧ (s.srcBase.toNat % 2 = 1 ∨ s.dstBase.toNat % 2 = 1))
      ∧ ((srcRange i s).hi ≤ Config.addrSpace ∧ (dstRange i s).hi ≤ Config.addrSpace)
      ∧ (srcRange i s).overlaps (dstRange i s) = false := by
  simp only [validateCommand]
  split
  case isTrue h => simp; tauto
  case isFalse h =>
    split
    case isTrue h2 => simp [h2]
    case isFalse h2 =>
      split
      case isTrue h3 => simp [h3]
      case isFalse h3 =>
        split
        case isTrue h4 => simp; omega
        case isFalse h4 =>
          split
          case isTrue h5 => simp [h5]
          case isFalse h5 =>
            simp only [Bool.not_eq_true] at h2 h5
            simp only [true_iff]
            exact ⟨by tauto, h2, h3, by omega, h5⟩

/-- The checks read registers only (R240). -/
theorem validateCommand_congr {i : Instr} {s t : State} (hh : t.height = s.height)
    (hw : t.width = s.width) (hc : t.count = s.count) (hs : t.srcBase = s.srcBase)
    (hd : t.dstBase = s.dstBase) : validateCommand i t = validateCommand i s := by
  have h1 : rows t = rows s := by simp [rows, hh]
  have h2 : cols t = cols s := by simp [cols, hw]
  have h3 : frameCount i t = frameCount i s := by simp [frameCount, hc]
  have h4 : shapeViolation i t = shapeViolation i s := by cases i <;> simp [shapeViolation, h1, h2]
  have h5 : srcRange i t = srcRange i s := by
    simp [srcRange, frameBytesIn, h1, h2, h3, hs]
  have h6 : dstRange i t = dstRange i s := by
    simp [dstRange, frameBytesOut, h1, h2, h3, hd]
  simp only [validateCommand, h1, h2, h3, h4, h5, h6, hs, hd]

theorem dstRange_congr {i : Instr} {s t : State} (hh : t.height = s.height)
    (hw : t.width = s.width) (hc : t.count = s.count) (hd : t.dstBase = s.dstBase) :
    dstRange i t = dstRange i s := by
  simp [dstRange, frameBytesOut, rows, cols, frameCount, hh, hw, hc, hd]

theorem srcRange_congr {i : Instr} {s t : State} (hh : t.height = s.height)
    (hw : t.width = s.width) (hc : t.count = s.count) (hs : t.srcBase = s.srcBase) :
    srcRange i t = srcRange i s := by
  simp [srcRange, frameBytesIn, rows, cols, frameCount, hh, hw, hc, hs]

/-- Source and destination of a command whose checks pass have no byte in common (R249). -/
theorem source_outside_destination {i : Instr} {s : State} (h : validateCommand i s = none) {a : Nat}
    (ha : (srcRange i s).has a = true) : (dstRange i s).has a = false :=
  Region.no_common_byte ((validateCommand_none_iff i s).1 h).2.2.2.2 a ha

theorem rangesBacked_iff (i : Instr) (s : State) :
    rangesBacked i s = true ↔
      backed s.ram (srcRange i s) = true ∧ backed s.ram (dstRange i s) = true :=
  Bool.and_eq_true_iff

/-- Whether the ranges are backed depends on the registers and the platform only. -/
theorem rangesBacked_congr {i : Instr} {s t : State} (hh : t.height = s.height)
    (hw : t.width = s.width) (hc : t.count = s.count) (hs : t.srcBase = s.srcBase)
    (hd : t.dstBase = s.dstBase) (hr : t.ram = s.ram) : rangesBacked i t = rangesBacked i s := by
  rw [rangesBacked, rangesBacked, srcRange_congr hh hw hc hs, dstRange_congr hh hw hc hd, hr]

/-- Whether a command runs depends on the registers, BUSY and the platform only. -/
theorem running_congr {i : Instr} {s t : State} (hb : t.busy = s.busy) (hh : t.height = s.height)
    (hw : t.width = s.width) (hc : t.count = s.count) (hs : t.srcBase = s.srcBase)
    (hd : t.dstBase = s.dstBase) (hr : t.ram = s.ram) : Running i t ↔ Running i s := by
  rw [Running, Running, hb, validateCommand_congr hh hw hc hs hd, srcRange_congr hh hw hc hs,
    dstRange_congr hh hw hc hd, hr]

/-- An accepted START leaves its command running. -/
theorem running_recordAccept {i : Instr} {s : State} (w : Bool) (hv : validateCommand i s = none)
    (hb : rangesBacked i s = true) : Running i (recordAccept w s) :=
  have hv' : validateCommand i (recordAccept w s) = validateCommand i s :=
    validateCommand_congr rfl rfl rfl rfl rfl
  ⟨rfl, hv'.trans hv, (rangesBacked_iff i s).1 hb⟩

/-! ## The START of a decoded command -/

/-- Everything the START of a decoded command can do. -/
theorem startPhase_cases (i : Instr) (s : State) :
    (∃ e, validateCommand i s = some e ∧ startPhase i s = .next (recordError e s))
    ∨ (validateCommand i s = none ∧ rangesBacked i s = true
        ∧ startPhase i s = .next (recordAccept (warns i) s))
    ∨ (validateCommand i s = none ∧ rangesBacked i s = false
        ∧ startPhase i s = .refused .unbackedMemory) := by
  cases h : validateCommand i s with
  | some e => exact .inl ⟨e, rfl, by simp only [startPhase, h]⟩
  | none =>
    right
    cases hb : rangesBacked i s with
    | true => exact .inl ⟨rfl, rfl, by simp only [startPhase, h, hb]; rfl⟩
    | false => exact .inr ⟨rfl, rfl, by simp only [startPhase, h, hb]; rfl⟩

/-! ## exec -/

theorem exec_idle (i : Instr) {s : State} (h : s.busy = false) : exec i s = startPhase i s := by
  rw [exec_eq_command, command, h]; rfl

/-- A running command completes, over the memory of all its frames. -/
theorem exec_running {i : Instr} {s : State} (h : Running i s) :
    exec i s = .next (complete (dstRange i s) (framesDone i s (frameCount i s)) s) := by
  obtain ⟨hb, hv, h1, h2⟩ := h
  rw [exec_eq_command, command, hb, if_pos rfl, enginePhase, hv, if_neg (by simp),
    if_pos ((rangesBacked_iff i s).2 ⟨h1, h2⟩)]
  rfl

/-- Everything `exec` can answer with a next state. -/
theorem exec_next_cases {i : Instr} {s t : State} (h : exec i s = .next t) :
    (s.busy = false ∧ startPhase i s = .next t)
    ∨ (Running i s ∧ t = complete (dstRange i s) (framesDone i s (frameCount i s)) s) := by
  cases hb : s.busy with
  | false => rw [exec_idle i hb] at h; exact .inl ⟨rfl, h⟩
  | true =>
    right
    have h0 := h
    rw [exec_eq_command, command, hb, if_pos rfl, enginePhase] at h
    split at h
    · cases h
    case isFalse hv =>
      split at h
      case isTrue hr =>
        have hv : validateCommand i s = none := by simpa using hv
        have hr := (rangesBacked_iff i s).1 hr
        have hrun : Running i s := ⟨hb, hv, hr.1, hr.2⟩
        rw [exec_running hrun] at h0
        cases h0
        exact ⟨hrun, rfl⟩
      · cases h

/-- `exec` never faults (R257), and what it refuses. -/
theorem exec_stop_cases (i : Instr) (s : State) :
    (∀ e, exec i s ≠ .fault e)
    ∧ ∀ r, exec i s = .refused r →
        (r = .invalidInFlight ∧ s.busy = true ∧ validateCommand i s ≠ none)
        ∨ (r = .unbackedMemory ∧ validateCommand i s = none ∧ rangesBacked i s = false) := by
  cases hb : s.busy with
  | false =>
    rw [exec_idle i hb]
    rcases startPhase_cases i s with ⟨e, _, h⟩ | ⟨_, _, h⟩ | ⟨hv, hr, h⟩ <;> rw [h] <;> simp_all
  | true =>
    rw [exec_eq_command, command, hb, if_pos rfl, enginePhase]
    split
    case isTrue hv => simp_all
    case isFalse hv => split <;> simp_all

/-- The engine leaves every byte outside the destination range alone (R72). -/
theorem framesDone_unchangedOutside (i : Instr) (s : State) :
    UnchangedOutside (dstRange i s) s.mem (framesDone i s (frameCount i s)) := by
  intro a ha
  apply readByte_framesDone_outside
  rw [Region.has_false_iff] at ha
  exact ha

/-- Sample q of destination frame k of a running command. -/
theorem dstSample_framesDone {i : Instr} {s : State} {k q : Nat} (hk : k < frameCount i s)
    (hq : q < samplesOut i (rows s) (cols s)) :
    dstSample i s (framesDone i s (frameCount i s)) k q
      = outValue i (rows s) (cols s) (srcSample i s k) q % (maxSample i.fields.sw + 1) :=
  sampleAt_framesDone hk hq

/-! ## The START -/

/-- Everything a START can do: nothing while BUSY, else record an error, accept, or be refused for memory
the platform does not back. -/
theorem start_cases (s : State) :
    (s.busy = true ∧ start s = .next s)
    ∨ (s.busy = false ∧ ∃ e, start s = .next (recordError e s))
    ∨ (s.busy = false ∧ ∃ i, decode s.cmd = .ok i ∧ validateCommand i s = none
        ∧ ((rangesBacked i s = true ∧ start s = .next (recordAccept (warns i) s))
          ∨ (rangesBacked i s = false ∧ start s = .refused .unbackedMemory))) := by
  cases hb : s.busy with
  | true => left; exact ⟨rfl, by simp [start, hb]⟩
  | false =>
    right
    cases hd : decode s.cmd with
    | error e => left; exact ⟨rfl, _, by simp only [start, hb, hd]; rfl⟩
    | ok i =>
      have hs : start s = exec i s := by simp only [start, hb, hd]; rfl
      rw [hs, exec_idle i hb]
      rcases startPhase_cases i s with ⟨e, _, h⟩ | ⟨hv, hr, h⟩ | ⟨hv, hr, h⟩
      · left; exact ⟨rfl, e, h⟩
      · right; exact ⟨rfl, i, rfl, hv, .inl ⟨hr, h⟩⟩
      · right; exact ⟨rfl, i, rfl, hv, .inr ⟨hr, h⟩⟩

/-- Everything a START can do when it has a next state. -/
theorem start_next_cases {s t : State} (h : start s = .next t) :
    (s.busy = true ∧ t = s)
    ∨ (s.busy = false ∧ ∃ e, t = recordError e s)
    ∨ (s.busy = false ∧ ∃ i, decode s.cmd = .ok i ∧ validateCommand i s = none
        ∧ rangesBacked i s = true ∧ t = recordAccept (warns i) s) := by
  rcases start_cases s with ⟨hb, e⟩ | ⟨hb, r, e⟩ | ⟨hb, i, hd, hv, ⟨hr, e⟩ | ⟨_, e⟩⟩ <;>
    (rw [e] at h; cases h)
  · exact .inl ⟨hb, rfl⟩
  · exact .inr (.inl ⟨hb, r, rfl⟩)
  · exact .inr (.inr ⟨hb, i, hd, hv, hr, rfl⟩)

/-- A START never faults, and is refused only for memory the platform does not back (R257, R65). -/
theorem start_stop_cases (s : State) :
    (∀ e, start s ≠ .fault e) ∧ ∀ r, start s = .refused r → r = .unbackedMemory := by
  rcases start_cases s with ⟨_, e⟩ | ⟨_, _, e⟩ | ⟨_, _, _, _, ⟨_, e⟩ | ⟨_, e⟩⟩ <;> rw [e] <;> simp_all

end Sys2Proof.Machine
end

