-- ==== Sys2Proof/Laws/PerInstr.lean ====
section
/-! SUPPORT. Statements made for each instruction: its assembled word matches its row of
spec/opcode_table.json. -/

namespace Sys2Proof.Laws.EncodedOp

/-- The assembled word carries the operation's OP in bits 3:0 and 0 in the reserved bits 31:15
(30_encoding.md R91, R92). -/
def Statement (i : Instr) : Prop :=
  bitField (encode i) 3 0 = i.opcode ∧ bitField (encode i) 31 15 = 0

/-- Every command's word: the bits above OP are a multiple of 16, below 2 ^ 15. -/
theorem holds (i : Instr) : Statement i := by
  have h1 := i.fields.bits_lt
  have h2 := i.opcode_le
  have h3 : i.fields.bits % 16 = 0 := by simp only [CmdFields.bits]; omega
  simp only [Statement, bitField, encode_toNat]
  omega

theorem demosaic (f : CmdFields) : Statement (.demosaic f) := holds _
theorem split (f : CmdFields) : Statement (.split f) := holds _
theorem gmerge (f : CmdFields) : Statement (.gmerge f) := holds _
theorem upsample (f : CmdFields) : Statement (.upsample f) := holds _
theorem luma (f : CmdFields) : Statement (.luma f) := holds _

end Sys2Proof.Laws.EncodedOp
end

