-- ==== Sys2Proof/Laws/Step.lean ====
section
/-! SUPPORT. Everything a step can do: one inversion lemma for each of the register write, the host
statement, the engine's turn, the reset and the step. -/

namespace Sys2Proof.Machine

/-- Everything a register write can do. -/
theorem writeReg_cases (r : Reg) (v : Word) (s : State) :
    (r = .ctrl ∧ v.getLsbD 0 = true ∧ writeReg r v s = start { s with irqEn := v.getLsbD 1 })
    ∨ (r = .ctrl ∧ v.getLsbD 0 = false ∧ writeReg r v s = .next { s with irqEn := v.getLsbD 1 })
    ∨ (r = .status ∧ writeReg r v s = .next (clearStatus v s))
    ∨ (s.busy = false ∧ ∃ c h w n sb db, writeReg r v s = .next
        { s with cmd := c, height := h, width := w, count := n, srcBase := sb, dstBase := db })
    ∨ writeReg r v s = .next s := by
  have hold : ∀ u : State, s.busy = true → Host.Outcome.next (if s.busy then s else u)
      = (.next s : Host.Outcome State Fault Refusal) := fun u hb => by rw [hb]; rfl
  have load : ∀ u : State, s.busy = false → Host.Outcome.next (if s.busy then s else u)
      = (.next u : Host.Outcome State Fault Refusal) := fun u hb => by rw [hb]; rfl
  cases r with
  | version => exact .inr (.inr (.inr (.inr rfl)))
  | reserved => exact .inr (.inr (.inr (.inr rfl)))
  | status => exact .inr (.inr (.inl ⟨rfl, rfl⟩))
  | ctrl =>
    cases h : v.getLsbD 0
    · exact .inr (.inl ⟨rfl, rfl, by simp only [writeReg, h]; rfl⟩)
    · exact .inl ⟨rfl, rfl, by simp only [writeReg, h]; rfl⟩
  | cmd =>
    rcases Bool.eq_false_or_eq_true s.busy with hb | hb
    · exact .inr (.inr (.inr (.inr (hold _ hb))))
    · exact .inr (.inr (.inr (.inl ⟨hb, v, s.height, s.width, s.count, s.srcBase, s.dstBase, load _ hb⟩)))
  | height =>
    rcases Bool.eq_false_or_eq_true s.busy with hb | hb
    · exact .inr (.inr (.inr (.inr (hold _ hb))))
    · exact .inr (.inr (.inr (.inl ⟨hb, s.cmd, _, s.width, s.count, s.srcBase, s.dstBase, load _ hb⟩)))
  | width =>
    rcases Bool.eq_false_or_eq_true s.busy with hb | hb
    · exact .inr (.inr (.inr (.inr (hold _ hb))))
    · exact .inr (.inr (.inr (.inl ⟨hb, s.cmd, s.height, _, s.count, s.srcBase, s.dstBase, load _ hb⟩)))
  | count =>
    rcases Bool.eq_false_or_eq_true s.busy with hb | hb
    · exact .inr (.inr (.inr (.inr (hold _ hb))))
    · exact .inr (.inr (.inr (.inl ⟨hb, s.cmd, s.height, s.width, _, s.srcBase, s.dstBase, load _ hb⟩)))
  | srcBase =>
    rcases Bool.eq_false_or_eq_true s.busy with hb | hb
    · exact .inr (.inr (.inr (.inr (hold _ hb))))
    · exact .inr (.inr (.inr (.inl ⟨hb, s.cmd, s.height, s.width, s.count, v, s.dstBase, load _ hb⟩)))
  | dstBase =>
    rcases Bool.eq_false_or_eq_true s.busy with hb | hb
    · exact .inr (.inr (.inr (.inr (hold _ hb))))
    · exact .inr (.inr (.inr (.inl ⟨hb, s.cmd, s.height, s.width, s.count, s.srcBase, v, load _ hb⟩)))

/-- A register write changes no byte of sample memory (R75 d, R251). -/
theorem writeReg_mem {r : Reg} {v : Word} {s t : State} (h : writeReg r v s = .next t) :
    t.mem = s.mem := by
  rcases writeReg_cases r v s with ⟨_, _, e⟩ | ⟨_, _, e⟩ | ⟨_, e⟩ | ⟨_, _, _, _, _, _, _, e⟩ | e
  · rw [e] at h
    rcases start_next_cases h with ⟨_, rfl⟩ | ⟨_, _, rfl⟩ | ⟨_, _, _, _, _, rfl⟩ <;> rfl
  all_goals (rw [e] at h; cases h; rfl)

theorem length_unpackHalves (vs : List Half) : (unpackHalves vs).length = 2 * vs.length := by
  induction vs with
  | nil => rfl
  | cons v vs ih =>
    have h : unpackHalves (v :: vs) = v.setWidth 8 :: (v >>> (8 : Nat)).setWidth 8 :: unpackHalves vs :=
      rfl
    rw [h]
    simp only [List.length_cons, ih]
    omega

/-- What a host access to memory stops on, and what lets it pass. -/
theorem hostAccessStop_cases (s : State) (a n : Nat) :
    (Config.addrSpace < a + n ∧ hostAccessStop s a n = some (.fault .outsideAddressSpace))
    ∨ (a + n ≤ Config.addrSpace ∧ backed s.ram ⟨a, a + n⟩ = false
        ∧ hostAccessStop s a n = some (.refused .unbackedMemory))
    ∨ (a + n ≤ Config.addrSpace ∧ backed s.ram ⟨a, a + n⟩ = true ∧ hostAccessStop s a n = none) := by
  simp only [hostAccessStop]
  split
  case isTrue h => exact .inl ⟨h, rfl⟩
  case isFalse h =>
    split
    case isTrue hb => exact .inr (.inr ⟨by omega, hb, rfl⟩)
    case isFalse hb => exact .inr (.inl ⟨by omega, by simpa using hb, rfl⟩)

/-- An access inside the address space to backed memory passes (R65). -/
theorem hostAccessStop_none {s : State} {a n : Nat} (h : a + n ≤ Config.addrSpace)
    (hb : backed s.ram ⟨a, a + n⟩ = true) : hostAccessStop s a n = none := by
  rcases hostAccessStop_cases s a n with ⟨h', _⟩ | ⟨_, h', _⟩ | ⟨_, _, h'⟩
  · exact absurd h (Nat.not_le.2 h')
  · rw [hb] at h'; cases h'
  · exact h'

/-- The state after a host store of `bs` at `a` (R104). -/
abbrev stored (a : Nat) (bs : List Byte) (s : State) : State :=
  { s with mem := storeBytes s.mem a bs
           fresh := cutAll ⟨a, a + bs.length⟩ s.fresh
           stale := cutAll ⟨a, a + bs.length⟩ s.stale }

/-- A host store to backed memory that meets no range of a command in flight completes. -/
theorem hostWrite_completes {a : Nat} {bs : List Byte} {s : State}
    (h : a + bs.length ≤ Config.addrSpace) (hb : backed s.ram ⟨a, a + bs.length⟩ = true)
    (ht : touchesRunning s ⟨a, a + bs.length⟩ = false) : hostWrite a bs s = .next (stored a bs s) := by
  rw [hostWrite, hostAccessStop_none h hb, ht]
  rfl

/-- A host read of backed memory completes. -/
theorem hostRead_completes {a n l : Nat} {pack : List Byte → List Half} {s : State}
    (h : a + n ≤ Config.addrSpace) (hb : backed s.ram ⟨a, a + n⟩ = true) :
    hostRead a n l pack s = .next
      { s with lists := insertKey l (pack (observeBytes s a n)) s.lists, draws := s.draws + n } := by
  rw [hostRead, hostAccessStop_none h hb]

theorem hostWrite_next {a : Nat} {bs : List Byte} {s t : State} (h : hostWrite a bs s = .next t) :
    a + bs.length ≤ Config.addrSpace ∧ backed s.ram ⟨a, a + bs.length⟩ = true
      ∧ touchesRunning s ⟨a, a + bs.length⟩ = false ∧ t = stored a bs s := by
  rcases hostAccessStop_cases s a bs.length with ⟨_, e⟩ | ⟨_, _, e⟩ | ⟨h1, h2, e⟩
  · simp [hostWrite, e] at h
  · simp [hostWrite, e] at h
  · simp only [hostWrite, e] at h
    split at h
    · cases h
    case isFalse ht => cases h; exact ⟨h1, h2, by simpa using ht, rfl⟩

theorem hostRead_next {a n l : Nat} {pack : List Byte → List Half} {s t : State}
    (h : hostRead a n l pack s = .next t) :
    t = { s with lists := insertKey l (pack (observeBytes s a n)) s.lists, draws := s.draws + n } := by
  rcases hostAccessStop_cases s a n with ⟨_, e⟩ | ⟨_, _, e⟩ | ⟨_, _, e⟩ <;>
    simp [hostRead, e] at h
  exact h.symm

/-- A register write of the window is `writeReg` after the host has gone on; while reset is asserted it
changes nothing else (R280). -/
theorem hostExec_wr {off : Nat} {v : Word} {r : Reg} (s : State) (hr : Reg.ofOffset off = some r) :
    hostExec (.wr .word off v) s
      = if s.resetHeld then .next (advance s) else writeReg r v (advance s) := by
  simp only [hostExec, hostWr, hr]

/-- Everything a host statement can do: change only the host's own fields and what it may rely on, write a
register with no reset asserted, or store to memory. -/
theorem hostExec_cases {st : HostStmt} {s t : State} (h : hostExec st s = .next t) :
    (∃ pc temps lists draws fresh, t =
        { s with hostPc := pc, temps := temps, lists := lists, draws := draws, fresh := fresh })
    ∨ (s.resetHeld = false ∧ ∃ off v r, st = .wr .word off v ∧ Reg.ofOffset off = some r
        ∧ writeReg r v (advance s) = .next t)
    ∨ (∃ a bs, storedBytes st = some (a, bs) ∧ a + bs.length ≤ Config.addrSpace
        ∧ touchesRunning s ⟨a, a + bs.length⟩ = false ∧ t = stored a bs (advance s)) := by
  cases st with
  | wr size off v =>
    simp only [hostExec, hostWr] at h
    cases size <;> cases hr : Reg.ofOffset off <;> simp only [hr, reduceCtorEq] at h
    rcases Bool.eq_false_or_eq_true s.resetHeld with hh | hh
    · rw [hh, if_pos rfl] at h
      cases h
      exact .inl ⟨s.hostPc + 1, s.temps, s.lists, s.draws, s.fresh, rfl⟩
    · rw [hh, if_neg (by decide)] at h
      exact .inr (.inl ⟨hh, off, v, _, rfl, hr, h⟩)
  | rd size off k =>
    simp only [hostExec, hostRd] at h
    cases size <;> cases hr : Reg.ofOffset off <;> simp only [hr, reduceCtorEq] at h
    left
    cases h
    rename_i r
    by_cases hd : r = .status ∧ s.done = true
    · refine ⟨s.hostPc + 1, insertKey k (readReg r s) s.temps, s.lists, s.draws, [], ?_⟩
      simp only [observe, advance, hd, and_self, if_true]
    · refine ⟨s.hostPc + 1, insertKey k (readReg r s) s.temps, s.lists, s.draws, s.fresh, ?_⟩
      simp only [observe, advance, hd, if_false]
  | mw8 a bs =>
    obtain ⟨h1, _, h3, h4⟩ := hostWrite_next h
    exact .inr (.inr ⟨_, _, rfl, h1, h3, h4⟩)
  | mw16 a vs =>
    obtain ⟨h1, _, h3, h4⟩ := hostWrite_next h
    exact .inr (.inr ⟨_, _, rfl, h1, h3, h4⟩)
  | mr8 a n l => exact .inl ⟨s.hostPc + 1, s.temps, _, _, s.fresh, hostRead_next (s := advance s) h⟩
  | mr16 a n l => exact .inl ⟨s.hostPc + 1, s.temps, _, _, s.fresh, hostRead_next (s := advance s) h⟩
  | bnz k m target =>
    cases h
    left
    simp only [branchIf]
    split
    · exact ⟨target, s.temps, s.lists, s.draws, s.fresh, rfl⟩
    · exact ⟨s.hostPc + 1, s.temps, s.lists, s.draws, s.fresh, rfl⟩
  | bz k m target =>
    cases h
    left
    simp only [branchIf]
    split
    · exact ⟨target, s.temps, s.lists, s.draws, s.fresh, rfl⟩
    · exact ⟨s.hostPc + 1, s.temps, s.lists, s.draws, s.fresh, rfl⟩
  | halt => cases h; exact .inl ⟨s.hostPc, s.temps, s.lists, s.draws, s.fresh, rfl⟩

/-- A host statement faults only by an access past the address space. -/
theorem hostExec_fault {st : HostStmt} {s : State} {e : Fault} (h : hostExec st s = .fault e) :
    ∃ r, accessedRange st = some r ∧ Config.addrSpace < r.hi := by
  cases st with
  | wr size off v =>
    simp only [hostExec, hostWr] at h
    cases size <;> cases hr : Reg.ofOffset off <;> simp only [hr, reduceCtorEq] at h
    rename_i r
    split at h
    · cases h
    rcases writeReg_cases r v (advance s) with ⟨_, _, e⟩ | ⟨_, _, e⟩ | ⟨_, e⟩ | ⟨_, _, _, _, _, _, _, e⟩ | e
    · rw [e] at h
      exact absurd h ((start_stop_cases _).1 _)
    all_goals (rw [e] at h; cases h)
  | rd size off k =>
    simp only [hostExec, hostRd] at h
    cases size <;> cases hr : Reg.ofOffset off <;> simp only [hr, reduceCtorEq] at h
  | mw8 a bs =>
    refine ⟨_, rfl, ?_⟩
    rcases hostAccessStop_cases (advance s) a.toNat bs.length with ⟨h1, e⟩ | ⟨_, _, e⟩ | ⟨_, _, e⟩
    · exact h1
    · simp [hostExec, hostWrite, e] at h
    · simp only [hostExec, hostWrite, e] at h; split at h <;> cases h
  | mw16 a vs =>
    refine ⟨_, rfl, ?_⟩
    rw [← length_unpackHalves]
    rcases hostAccessStop_cases (advance s) a.toNat (unpackHalves vs).length with
      ⟨h1, e⟩ | ⟨_, _, e⟩ | ⟨_, _, e⟩
    · exact h1
    · simp [hostExec, hostWrite, e] at h
    · simp only [hostExec, hostWrite, e] at h; split at h <;> cases h
  | mr8 a n l =>
    refine ⟨_, rfl, ?_⟩
    rcases hostAccessStop_cases (advance s) a.toNat n with ⟨h1, e⟩ | ⟨_, _, e⟩ | ⟨_, _, e⟩
    · exact h1
    all_goals simp [hostExec, hostRead, e] at h
  | mr16 a n l =>
    refine ⟨_, rfl, ?_⟩
    rcases hostAccessStop_cases (advance s) a.toNat (2 * n) with ⟨h1, e⟩ | ⟨_, _, e⟩ | ⟨_, _, e⟩
    · exact h1
    all_goals simp [hostExec, hostRead, e] at h
  | bnz k m target => cases h
  | bz k m target => cases h
  | halt => cases h

/-! ## The turns -/

theorem inFlight_some_iff (s : State) (i : Instr) :
    inFlight s = some i ↔ s.busy = true ∧ decode s.cmd = .ok i := by
  simp only [inFlight]
  cases s.busy <;> cases decode s.cmd <;> simp

/-- Everything the engine's turn can do. -/
theorem engineTurn_next {s t : State} (h : engineTurn s = .next t) :
    (s.busy = false ∧ t = s)
    ∨ ∃ i, inFlight s = some i ∧ Running i s
        ∧ t = complete (dstRange i s) (framesDone i s (frameCount i s)) s := by
  simp only [engineTurn] at h
  cases hb : s.busy with
  | false => rw [hb] at h; cases h; exact .inl ⟨rfl, rfl⟩
  | true =>
    right
    rw [hb, if_pos rfl] at h
    cases hd : decode s.cmd with
    | error e => rw [hd] at h; cases h
    | ok i =>
      rw [hd] at h
      rcases exec_next_cases h with ⟨h', _⟩ | ⟨h1, h2⟩
      · rw [hb] at h'; cases h'
      · exact ⟨i, (inFlight_some_iff s i).2 ⟨hb, hd⟩, h1, h2⟩

/-- What asserting reset leaves (R280, R281): the reset held, the registers at their reset values, the host
and the platform as they were, and of memory at most the destination of the command in flight changed. -/
theorem assertReset_spec (s : State) :
    ∃ m d, assertReset s = { resetRegisters s with
        resetHeld := true, mem := m, draws := d, fresh := [], stale := s.fresh ++ s.stale }
      ∧ ((inFlight s = none ∧ m = s.mem)
        ∨ ∃ i, inFlight s = some i ∧ m = scramble s.draws (clip (dstRange i s)) s.mem) := by
  cases h : inFlight s with
  | none => exact ⟨s.mem, s.draws, by simp only [assertReset, h]; rfl, .inl ⟨rfl, rfl⟩⟩
  | some i =>
    exact ⟨_, s.draws + ((clip (dstRange i s)).hi - (clip (dstRange i s)).lo),
      by simp only [assertReset, h], .inr ⟨i, rfl, rfl⟩⟩

/-- One step is the turn of the agent at the head of the list, or of the default agent. -/
theorem step_eq (s : State) :
    step s = turnOf (s.sched.headD (defaultTurn s)) { s with sched := s.sched.tail } := by
  cases s
  rename_i sched _ _ _ _
  cases sched <;> rfl

end Sys2Proof.Machine
end

