-- ==== Sys2Proof/Tests/Slice0.lean ====
section
/-! SUPPORT. Tests of the model: words and results written out from spec/30_encoding.md and the worked
vectors of spec/95_tests.md, and for each obligation with hypotheses a witness that meets them. -/

namespace Sys2Proof.Tests

open Machine

/-! ## Helpers -/

/-- A state with the command registers loaded and the bytes `bs` at `src`. -/
def loaded (cmd : Word) (h w n : Half) (src dst : Word) (bs : List Byte) : State :=
  { State.reset with
    cmd := cmd, height := h, width := w, count := n, srcBase := src, dstBase := dst
    mem := storeBytes [] src.toNat bs }

/-- The same with the command accepted and in flight. -/
def flying (cmd : Word) (h w n : Half) (src dst : Word) (bs : List Byte) : State :=
  { loaded cmd h w n src dst bs with busy := true }

/-- The same with the host about to run `st`. -/
def hosting (st : HostStmt) (s : State) : State := { s with prog := [st], hostPc := 0, sched := [.host] }

def result (o : Host.Outcome State Fault Refusal) : State :=
  match o with
  | .next s => s
  | _ => State.reset

def goesOn (o : Host.Outcome State Fault Refusal) : Bool :=
  match o with
  | .next _ => true
  | _ => false

theorem goesOn_next {o : Host.Outcome State Fault Refusal} (h : goesOn o = true) : o = .next (result o) := by
  cases o <;> simp_all [goesOn, result]

def bytesAt (s : State) (a n : Nat) : List Nat := (List.range n).map fun k => (readByte s.mem (a + k)).toNat

/-- Default fields: GRBG, u8, round half away, gray, order 0, one frame, one channel. -/
def plain : CmdFields := ⟨.grbg, .u8, .half, .gray, 0, false, .one⟩

/-! ## WellFormed: the one ill-formed combination is refused, its neighbours are not (R100, R101) -/

theorem test_luma_unsupported_layout_is_ill_formed :
    (Instr.luma { plain with lch := .unsupported }).wellFormed = false := by decide
theorem test_luma_four_channels_is_well_formed :
    (Instr.luma { plain with lch := .four }).wellFormed = true := by decide
theorem test_demosaic_ignores_the_layout :
    (Instr.demosaic { plain with lch := .unsupported }).wellFormed = true := by decide

/-! ## Decoding: words written out bit by bit from R91's field table (95_tests.md 2.1) -/

theorem test_decode_demosaic : decode 0b00000000000000000001011110110000#32
    = .ok (.demosaic ⟨.gbrg, .u16, .trunc, .color, 3, true, .one⟩) := by decide
theorem test_decode_split : decode 0b00000000000000000001000000110001#32
    = .ok (.split ⟨.gbrg, .u16, .half, .gray, 0, true, .one⟩) := by decide
theorem test_decode_gmerge : decode 0b00000000000000000000000010000010#32
    = .ok (.gmerge ⟨.grbg, .u8, .trunc, .gray, 0, false, .one⟩) := by decide
theorem test_decode_upsample : decode 0b00000000000000000000111000000011#32
    = .ok (.upsample ⟨.grbg, .u8, .half, .gray, 7, false, .one⟩) := by decide
theorem test_decode_luma : decode 0b00000000000000000101000000100100#32
    = .ok (.luma ⟨.grbg, .u16, .half, .gray, 0, true, .four⟩) := by decide
theorem test_decode_all_ones_is_illegal : decode 0xFFFFFFFF#32 = .error .illegalOp := by decide
theorem test_decode_reserved_bit_31 : decode 0x80000004#32 = .error .reserved := by decide
theorem test_decode_width_three : decode 0x00000061#32 = .error .width := by decide
theorem test_decode_table_word : decodeTableWord 32 0x00000001 = some (.split plain) := by decide

/-! ## START (95_tests.md 2.2) -/

/-- V1. -/
theorem test_start_with_reset_registers :
    statusWord (result (start State.reset)) = 0x00000044#32 := by decide
/-- V15: the source begins inside the destination. -/
theorem test_start_overlap :
    statusWord (result (start (loaded 0x100 2 2 0 0x6004 0x6000 []))) = 0x00000084#32 := by decide
/-- V16: the ranges touch. -/
theorem test_start_touching_ranges :
    statusWord (result (start (loaded 0x100 2 2 0 0x600C 0x6000 []))) = 0x00000001#32 := by decide
/-- V11: the source ends at the end of memory. -/
theorem test_start_at_the_top_of_memory :
    statusWord (result (start (loaded 0x100 2 2 0 0xFFFFFFFC 0x2000 []))) = 0x00000001#32 := by decide
/-- V22: the warning of an ALG fallback. -/
theorem test_start_warns :
    statusWord (result (start (loaded 0xE03 2 2 0 0x1000 0x2000 []))) = 0x00000109#32 := by decide
/-- A word placed as the next command is what the next step runs; reset's raster is empty. -/
theorem test_with_fetch_word :
    statusWord (result (step (State.reset.withFetchWord 32 0x00000001))) = 0x00000044#32 := by decide

/-- R280: a START while reset is asserted starts nothing and sets no flag. -/
theorem test_start_while_reset_is_asserted :
    statusWord (result (hostExec (.wr .word 0x04 0x3) { State.reset with resetHeld := true })) = 0#32 := by
  decide
/-- R61, R104: the low byte of 0x1234 lies at the lower address. -/
theorem test_mw16_low_byte_first :
    bytesAt (result (hostExec (.mw16 0x1000 [0x1234]) State.reset)) 0x1000 2 = [0x34, 0x12] := by decide

/-! ## Results (95_tests.md sections 1 and 2.4 to 2.8) -/

/-- S4. -/
theorem test_demosaic_color :
    bytesAt (result (exec (.demosaic { plain with out := .color })
      (flying 0x100 2 2 0 0x1000 0x2000 [23, 128, 202, 27]))) 0x2000 12
      = [128, 25, 202, 128, 25, 202, 128, 25, 202, 128, 25, 202] := by decide +kernel
/-- P5 (B2): two gray frames, toward zero. -/
theorem test_demosaic_gray_batch :
    bytesAt (result (exec (.demosaic { plain with rnd := .trunc, batch := true })
      (flying 0x1080 2 2 2 0x1000 0x2100 [23, 128, 202, 27, 0, 255, 255, 1]))) 0x2100 8
      = [76, 76, 76, 76, 105, 105, 105, 105] := by decide +kernel
/-- SP4: GBRG. -/
theorem test_split_gbrg :
    bytesAt (result (exec (.split { plain with pat := .gbrg })
      (flying 0x11 4 4 0 0x1000 0x2000 [0, 1, 2, 3, 4, 5, 6, 7, 8, 9, 10, 11, 12, 13, 14, 15])))
      0x2000 16 = [0, 2, 8, 10, 5, 7, 13, 15, 4, 6, 12, 14, 1, 3, 9, 11] := by decide +kernel
/-- SP6: 16-bit samples. -/
theorem test_split_u16 :
    bytesAt (result (exec (.split { plain with sw := .u16 })
      (flying 0x21 2 2 0 0x1000 0x2000 [232, 3, 64, 156, 255, 255, 185, 11]))) 0x2000 8
      = [232, 3, 185, 11, 64, 156, 255, 255] := by decide +kernel
/-- GM1, half away from zero. -/
theorem test_gmerge_half :
    bytesAt (result (exec (.gmerge plain)
      (flying 0x2 4 4 0 0x1000 0x2000 [10, 30, 90, 110, 51, 70, 140, 251]))) 0x2000 4
      = [31, 50, 115, 181] := by decide +kernel
/-- GM2, 16-bit, toward zero. -/
theorem test_gmerge_u16_trunc :
    bytesAt (result (exec (.gmerge { plain with sw := .u16, rnd := .trunc })
      (flying 0xA2 2 2 0 0x1000 0x2000 [232, 3, 185, 11]))) 0x2000 2 = [208, 7] := by decide +kernel
/-- UP2, order 2: clamped, and floor of a negative sum; row 1 of `[0,100] [200,40]` in channel 0. -/
theorem test_upsample_quadratic :
    (List.range 4).map (fun x => upsample .quadratic 255 2 2
      (fun i j _ => if i = 0 then (if j = 0 then 0 else 100) else (if j = 0 then 200 else 40)) 1 x 0)
      = [26, 41, 81, 96] := by decide
/-- UP4, order 3 on `[0, 100]`, all channels, both rows alike. -/
theorem test_upsample_cubic :
    bytesAt (result (exec (.upsample { plain with alg := 3 })
      (flying 0x603 2 4 0 0x1000 0x2000 [0, 0, 0, 100, 100, 100]))) 0x2000 24
      = [0, 0, 0, 23, 23, 23, 77, 77, 77, 105, 105, 105,
         0, 0, 0, 23, 23, 23, 77, 77, 77, 105, 105, 105] := by decide +kernel
/-- P2: 16-bit RGBA, two frames, alpha unread. -/
theorem test_luma_rgba_batch :
    bytesAt (result (exec (.luma { plain with sw := .u16, lch := .four, batch := true })
      (flying 0x5024 1 2 2 0x4000 0x5000
        [255, 255, 255, 255, 255, 255, 0, 0, 232, 3, 208, 7, 184, 11, 77, 0,
         244, 1, 0, 0, 0, 0, 255, 255, 0, 0, 0, 0, 0, 0, 1, 0]))) 0x5000 8
      = [255, 255, 23, 7, 150, 0, 0, 0] := by decide +kernel
/-- R194: one channel is a copy, odd dimensions legal (V18). -/
theorem test_luma_copy :
    bytesAt (result (exec (.luma plain) (flying 0x4 3 1 0 0x1000 0x2000 [9, 8, 7]))) 0x2000 3
      = [9, 8, 7] := by decide +kernel

/-! ## Registers (95_tests.md 2.3) -/

/-- G9: clearing DONE keeps the warning. -/
theorem test_status_clears_done_only :
    statusWord (clearStatus 0x2 { State.reset with done := true, warn := true, warnCode := 1 })
      = 0x00000108#32 := by decide
/-- G13: ERRCODE is read-only. -/
theorem test_status_errcode_is_read_only :
    statusWord (clearStatus 0xF0 { State.reset with err := true, errCode := 4 })
      = 0x00000044#32 := by decide
/-- G4: HEIGHT keeps its low half. -/
theorem test_height_keeps_its_low_half :
    readReg .height (result (writeReg .height 0x12345678 State.reset)) = 0x00005678#32 := by decide
/-- G17: CMD is frozen while BUSY = 1. -/
theorem test_cmd_is_frozen :
    readReg .cmd (result (writeReg .cmd 0 (flying 0xE03 2 2 0 0x1000 0x2000 []))) = 0x00000E03#32 := by
  decide
/-- G20: IRQ_EN stays writable, the START is ignored. -/
theorem test_start_while_busy_sets_irq_en_only :
    readReg .ctrl (result (writeReg .ctrl 0x3 (flying 0xE03 2 2 0 0x1000 0x2000 []))) = 0x00000002#32
      := by decide

/-! ## Witnesses: what each obligation assumes can be met -/

/-- One command of each operation in flight, on 2 x 2 rasters; UPSAMPLE warns. -/
def demosaic2 : State := flying 0x100 2 2 0 0x1000 0x2000 [23, 128, 202, 27]
def split2 : State := flying 0x001 2 2 0 0x1000 0x1100 [23, 128, 202, 27]
def gmerge2 : State := flying 0x002 2 2 0 0x1100 0x1200 [23, 27]
def upsample2 : State := flying 0xE03 2 2 0 0x1300 0x1400 [128, 25, 202]
def luma2 : State := flying 0x2004 2 2 0 0x1400 0x1500
  [128, 25, 202, 128, 25, 202, 128, 25, 202, 128, 25, 202]

theorem running_of_checks {i : Instr} {s : State}
    (h : s.busy = true ∧ validateCommand i s = none ∧ backed s.ram (srcRange i s) = true
      ∧ backed s.ram (dstRange i s) = true) : Running i s := h

/-- `Running`, of the five result statements and of those on every command. Each of GRBG and GBRG, RND 0
and 1, COLOR 0 and 1, LCH 0 to 2. -/
theorem witness_Running_demosaic : Running (.demosaic { plain with out := .color }) demosaic2
    ∧ Running (.demosaic { plain with pat := .gbrg, rnd := .trunc }) demosaic2 :=
  ⟨running_of_checks (by decide), running_of_checks (by decide)⟩
theorem witness_Running_split :
    Running (.split plain) split2 ∧ Running (.split { plain with pat := .gbrg }) split2 :=
  ⟨running_of_checks (by decide), running_of_checks (by decide)⟩
theorem witness_Running_gmerge :
    Running (.gmerge plain) gmerge2 ∧ Running (.gmerge { plain with rnd := .trunc }) gmerge2 :=
  ⟨running_of_checks (by decide), running_of_checks (by decide)⟩
theorem witness_Running_upsample : Running (.upsample { plain with alg := 7 }) upsample2 :=
  running_of_checks (by decide)
theorem witness_Running_luma :
    Running (.luma plain) luma2 ∧ Running (.luma { plain with lch := .three }) luma2
      ∧ Running (.luma { plain with lch := .four }) { luma2 with dstBase := 0x1600 } :=
  ⟨running_of_checks (by decide), running_of_checks (by decide), running_of_checks (by decide)⟩

theorem witness_DecodeOfEncodeIsTheCommand :
    (Instr.luma ⟨.gbrg, .u16, .trunc, .color, 7, true, .four⟩).wellFormed = true := by decide
theorem witness_EncodeOfDecodeIsTheWord :
    decode 0x00000F81#32 = .ok (.split ⟨.grbg, .u8, .trunc, .color, 7, false, .one⟩) := by decide

/-- OP 5, RSV bit 15, SW 2, LUMA LCH 3 and the legal word beside each. -/
theorem witness_DecoderFollowsTheSummary :
    4 < ((0x5#32).extractLsb' 0 4).toNat
    ∧ (((0x8004#32).extractLsb' 0 4).toNat ≤ 4 ∧ (0x8004#32).extractLsb' 15 17 ≠ 0)
    ∧ ((0x44#32).extractLsb' 15 17 = 0 ∧ 1 < ((0x44#32).extractLsb' 5 2).toNat)
    ∧ (((0x6004#32).extractLsb' 5 2).toNat ≤ 1 ∧ ((0x6004#32).extractLsb' 0 4).toNat = 4
        ∧ (0x6004#32).extractLsb' 13 2 = 3#2)
    ∧ ¬ (((0x6003#32).extractLsb' 0 4).toNat = 4 ∧ (0x6003#32).extractLsb' 13 2 = 3#2)
    ∧ ¬ (((0x4004#32).extractLsb' 0 4).toNat = 4 ∧ (0x4004#32).extractLsb' 13 2 = 3#2)
    ∧ (∃ s : State, s.busy = false ∧ s.cmd = 0x7004#32 ∧ decode (0x7004#32) = .error .lumaShape
        ∧ s.height ≠ 0 ∧ s.width ≠ 0 ∧ (0x7004#32).getLsbD 12 = true ∧ s.count = 0)
    ∧ ∃ s : State, s.busy = false ∧ s.cmd = 0x6004#32 ∧ s.height = 0 :=
  ⟨by decide, by decide, by decide, by decide, by decide, by decide,
    ⟨loaded 0x7004 1 1 0 0 0 [], by decide⟩, ⟨loaded 0x6004 0 1 0 0 0 [], by decide⟩⟩

theorem witness_ReservedBitsReadZeroAndIgnoreWrites :
    (0x24 ≤ 0x24 ∧ 0x24 ≤ 0xFC ∧ 0x24 % 4 = 0) ∧ (0x24 ≤ 0xFC ∧ 0xFC ≤ 0xFC ∧ 0xFC % 4 = 0)
      ∧ State.reset.busy = false := by decide
theorem witness_CommandRegistersReadBackTheirWrites : State.reset.busy = false := by decide
theorem witness_BusyFreezesCommandRegistersAndIgnoresStart :
    upsample2.busy = true ∧ (0x8#32).getLsbD 3 = true := by decide
theorem witness_OnlyAlignedWordAccessesReachTheWindow :
    (BusSize.half ≠ .word ∨ 0 % 4 ≠ 0 ∨ 0xFC < 0)
    ∧ (BusSize.word ≠ .word ∨ 0x02 % 4 ≠ 0 ∨ 0xFC < 0x02)
    ∧ (BusSize.word ≠ .word ∨ 0x100 % 4 ≠ 0 ∨ 0xFC < 0x100)
    ∧ (0x00 % 4 = 0 ∧ 0x00 ≤ 0xFC) ∧ (0xFC % 4 = 0 ∧ 0xFC ≤ 0xFC) ∧ (0x24 % 4 = 0 ∧ 0x24 ≤ 0xFC)
    ∧ Reg.ofOffset 0x20 = some .dstBase ∧ State.reset.resetHeld = false
    ∧ { State.reset with resetHeld := true }.resetHeld = true := by decide
theorem witness_IrqIsALevelOfDoneAndErr :
    ((0x6#32).getLsbD 1 = true ∧ (0x6#32).getLsbD 2 = true)
      ∧ ((0x0#32).getLsbD 0 = false ∧ (0x0#32).getLsbD 1 = false) ∧ (0x2#32).getLsbD 0 = false := by
  decide

/-- A LUMA of one pixel whose destination is the last byte of memory; its source byte alone is backed in
`halfBacked`. -/
def luma1 : State := loaded 0x4 1 1 0 0x1000 0xFFFFFFFF []
def halfBacked : State := { luma1 with ram := [⟨0, 0xFFFFFFFF⟩] }

/-- A command whose last byte the platform does not back is refused at its START (R65, U5). -/
theorem test_start_of_an_unbacked_command_is_refused :
    step (hosting (.wr .word 0x04 0x1) halfBacked) = .refused .unbackedMemory := by rfl

/-- A failing and a passing START (V2, V7), backed and unbacked. -/
theorem witness_StartFollowsValidate :
    (loaded 0x100 2 3 0 0x1000 0x2000 []).busy = false
      ∧ validate (loaded 0x100 2 3 0 0x1000 0x2000 []) = some .shape
      ∧ luma1.busy = false ∧ validate luma1 = none ∧ validate halfBacked = none
      ∧ decode luma1.cmd = .ok (.luma plain)
      ∧ rangesBacked (.luma plain) luma1 = true ∧ rangesBacked (.luma plain) halfBacked = false := by
  decide
theorem witness_FailedStartRecordsOnlyTheError :
    (loaded 0x4 1 1 0 0x1000 0x1000 []).busy = false
      ∧ validate (loaded 0x4 1 1 0 0x1000 0x1000 []) = some .overlap := by decide
theorem witness_AcceptedStartRecordsTheWarning :
    (loaded 0xE03 2 2 0 0x1000 0x2000 []).busy = false
      ∧ validate (loaded 0xE03 2 2 0 0x1000 0x2000 []) = none
      ∧ ∀ i, decode (loaded 0xE03 2 2 0 0x1000 0x2000 []).cmd = .ok i →
          rangesBacked i (loaded 0xE03 2 2 0 0x1000 0x2000 []) = true := by
  refine ⟨by decide, by decide, fun i h => ?_⟩
  have e : decode (loaded 0xE03 2 2 0 0x1000 0x2000 []).cmd = .ok (.upsample { plain with alg := 7 }) := by
    decide
  cases e.symm.trans h
  decide
theorem witness_EveryCommandStartsOrFails :
    (luma1.busy = false ∧ halfBacked.busy = false)
      ∧ (validateCommand (.luma plain) luma1 = none ∧ rangesBacked (.luma plain) luma1 = true)
      ∧ (validateCommand (.luma plain) halfBacked = none ∧ rangesBacked (.luma plain) halfBacked = false)
      ∧ validateCommand (.luma plain) (loaded 0x4 1 1 0 0x1000 0x1000 []) = some .overlap := by decide
theorem witness_AcceptedCommandHasSoundRanges :
    validateCommand (.split { plain with sw := .u16 }) (loaded 0x21 2 2 0 0x1000 0x2000 []) = none
      ∧ (Instr.split plain).opcode ≠ 4 := by decide
theorem witness_UnusedFieldsHaveNoEffect :
    (⟨.gbrg, .u8, .trunc, .color, 7, false, .three⟩ : CmdFields) ≠ { plain with pat := .gbrg }
      ∧ (⟨.gbrg, .u8, .trunc, .color, 7, false, .three⟩ : CmdFields).pat
        = { plain with pat := .gbrg }.pat := by decide
/-- In flight with no memory, and at a START with the destination byte alone unbacked. -/
theorem witness_UnbackedCommandIsRefused :
    (validateCommand (.split plain) { split2 with ram := [] } = none
      ∧ (srcRange (.split plain) { split2 with ram := [] }).has 0x1000 = true ∧ anyHas [] 0x1000 = false)
    ∧ validateCommand (.luma plain) halfBacked = none
      ∧ (dstRange (.luma plain) halfBacked).has 0xFFFFFFFF = true
      ∧ anyHas halfBacked.ram 0xFFFFFFFF = false := by decide

theorem witness_SamplesInRange :
    (∀ i j : Nat, (fun _ _ _ : Nat => 255) i j 0 ≤ maxSample .u8)
      ∧ (∀ i j : Nat, (fun _ _ _ : Nat => 65535) i j 0 = 65535) ∧ 65535 ≤ maxSample .u16 :=
  ⟨fun _ _ => Nat.le_refl 255, fun _ _ => rfl, by decide⟩
theorem witness_UpsampleReadsOnlyInsideThePlane :
    (1 < 2 * 1 ∧ 1 < 2 * 1)
      ∧ ∀ i j, i < 1 → j < 1 → (fun i j _ : Nat => i + j) i j 0 = (fun _ _ _ : Nat => 0) i j 0 :=
  ⟨by decide, fun i j hi hj => by simp only; omega⟩
theorem witness_OrdersBeyondNearest : (Order.linear ≠ .nearest) ∧ Order.cubic ≠ .nearest := by decide
theorem witness_UpsampleWritesTheFilteredPlane :
    (1#3).toNat = 1 ∧ (2#3).toNat = 2 ∧ (3#3).toNat = 3 ∧ (0#3).toNat = 0 ∧ 4 ≤ (4#3).toNat := by decide
theorem witness_TapTablesSumToTheirShift : 0 < 1 := by decide
theorem witness_NearestReplicatesEachPixel : 0 < 2 ∧ 1 < 2 := by decide
theorem witness_MergeRoundsInsideTheSampleRange :
    (254 ≤ maxSample .u8 ∧ 255 ≤ maxSample .u8 ∧ (254 + 255) % 2 = 1) ∧ (255 + 255) % 2 = 0 := by decide
theorem witness_LumaIsNearestAndMonotone :
    65535 ≤ maxSample .u16 ∧ (0 ≤ 1 ∧ 5 ≤ 5 ∧ 254 ≤ 255) := by decide
theorem witness_SplitPermutesTheFrame : 2 % 2 = 0 ∧ 4 % 2 = 0 := by decide
theorem witness_SixteenBitValuesAreLittleEndian : 65535 < 65536 := by decide

/-- Two states that agree on nothing but the raster and the source bytes. -/
theorem witness_DestinationDependsOnlyOnTheSource :
    Running (.split plain) split2 ∧ Running (.split plain) (flying 0xF81 2 2 9 0x7000 0x8003 [23, 128, 202, 27])
      ∧ ∀ q, split2.srcBase.toNat + q < (srcRange (.split plain) split2).hi →
        readByte (flying 0xF81 2 2 9 0x7000 0x8003 [23, 128, 202, 27]).mem (0x7000 + q)
          = readByte split2.mem (split2.srcBase.toNat + q) := by
  refine ⟨running_of_checks (by decide), running_of_checks (by decide), fun q hq => ?_⟩
  have h : q < 4 := Nat.lt_of_add_lt_add_left (n := 0x1000) hq
  interval_cases q <;> decide
/-- The last frame of a batch of two. -/
theorem witness_BatchFrameMatchesTheSingleFrame :
    Running (.demosaic { plain with batch := true })
        (flying 0x1000 2 2 2 0x1000 0x2000 [23, 128, 202, 27, 0, 255, 255, 1])
      ∧ 1 < frameCount (.demosaic { plain with batch := true })
        (flying 0x1000 2 2 2 0x1000 0x2000 [23, 128, 202, 27, 0, 255, 255, 1]) :=
  ⟨running_of_checks (by decide), by decide⟩

/-- The source's 2 x 2 frame through the four unit commands (S4, S5): each state's source holds what the
command before wrote. -/
theorem witness_UnitCommandsComposeToDemosaic :
    (Running (.demosaic plain) demosaic2 ∧ Running (.split plain) split2
      ∧ Running (.gmerge plain) gmerge2 ∧ Running (.upsample plain) upsample2
      ∧ Running (.luma { plain with lch := .three }) luma2)
    ∧ exec (.split plain) split2 = .next (result (exec (.split plain) split2))
    ∧ exec (.gmerge plain) gmerge2 = .next (result (exec (.gmerge plain) gmerge2))
    ∧ exec (.upsample plain) upsample2 = .next (result (exec (.upsample plain) upsample2))
    ∧ (∀ q, q < 4 → srcSample (.split plain) split2 0 q = srcSample (.demosaic plain) demosaic2 0 q)
    ∧ (∀ q, q < 2 → srcSample (.gmerge plain) gmerge2 0 q
        = dstSample (.split plain) split2 (result (exec (.split plain) split2)).mem 0 q)
    ∧ (∀ q, q < 1 →
        srcSample (.upsample plain) upsample2 0 (q * 3)
          = dstSample (.split plain) split2 (result (exec (.split plain) split2)).mem 0 (2 + q)
        ∧ srcSample (.upsample plain) upsample2 0 (q * 3 + 1)
          = dstSample (.gmerge plain) gmerge2 (result (exec (.gmerge plain) gmerge2)).mem 0 q
        ∧ srcSample (.upsample plain) upsample2 0 (q * 3 + 2)
          = dstSample (.split plain) split2 (result (exec (.split plain) split2)).mem 0 (3 + q))
    ∧ ∀ q, q < 12 → srcSample (.luma { plain with lch := .three }) luma2 0 q
        = dstSample (.upsample plain) upsample2 (result (exec (.upsample plain) upsample2)).mem 0 q := by
  refine ⟨⟨running_of_checks (by decide), running_of_checks (by decide), running_of_checks (by decide),
    running_of_checks (by decide), running_of_checks (by decide)⟩, goesOn_next (by decide +kernel),
    goesOn_next (by decide +kernel), goesOn_next (by decide +kernel), ?_, ?_, ?_, ?_⟩
  all_goals decide +kernel

/-- A START write as the next move, with the turn listed and with no turn listed; of a word that decodes
and of one that does not. -/
theorem witness_StartStepRunsTheDecodedCommand :
    let s := hosting (.wr .word 0x04 0x3) (loaded 0x100 2 2 0 0x1000 0x2000 [])
    let b := hosting (.wr .word 0x04 0x3) (loaded 0x5 2 2 0 0x1000 0x2000 [])
    b.busy = false ∧ decode b.cmd = .error .illegalOp ∧ b.resetHeld = false ∧ b.sched = .host :: []
      ∧ b.prog[b.hostPc]? = some (.wr .word 0x04 0x3)
      ∧ s.resetHeld = false ∧ s.busy = false ∧ decode s.cmd = .ok (.demosaic { plain with out := .color })
      ∧ s.prog[s.hostPc]? = some (.wr .word 0x04 0x3) ∧ (0x3#32).getLsbD 0 = true
      ∧ s.sched = .host :: [] ∧ { s with sched := [] }.sched = [] := by decide
theorem witness_EngineStepRunsTheCommandInFlight :
    split2.busy = true ∧ decode split2.cmd = .ok (.split plain) ∧ split2.sched = []
      ∧ { split2 with sched := [.engine, .host] }.sched = .engine :: [.host] := by decide

theorem inv_split2 : Inv split2 :=
  ⟨⟨by decide, by decide⟩, by unfold FlagsOk; decide, fun _ => ⟨.split plain, by decide, running_of_checks (by decide)⟩,
    fun h => absurd h (by decide)⟩

theorem witness_EveryStepKeepsTheInvariant : Inv split2 ∧ goesOn (step split2) = true :=
  ⟨inv_split2, by decide +kernel⟩
theorem witness_InvariantExcludesAnInvalidCommandInFlight : Inv split2 ∧ engineMoves split2 = true :=
  ⟨inv_split2, by decide⟩
theorem witness_DoneRisesOnlyAtCompletion :
    step split2 = .next (result (step split2)) ∧ split2.done = false
      ∧ (result (step split2)).done = true :=
  ⟨goesOn_next (by decide +kernel), by decide, by decide +kernel⟩
theorem witness_BusyRisesOnlyAtAnAcceptedStart :
    let s := hosting (.wr .word 0x04 0x1) (loaded 0x100 2 2 0 0x1000 0x2000 [])
    step s = .next (result (step s)) ∧ s.busy = false ∧ (result (step s)).busy = true :=
  ⟨goesOn_next (by decide +kernel), by decide, by decide +kernel⟩
theorem witness_CommandInFlightKeepsItsRegisters :
    let s := hosting (.wr .word 0x0C 0x0) split2
    step s = .next (result (step s)) ∧ s.busy = true ∧ s.sched.headD .engine ≠ .reset :=
  ⟨goesOn_next (by decide +kernel), by decide, by decide⟩

def memLuma2 : State := { luma2 with mem := writeByte luma2.mem 0x1500 0 }
def storing2 : State := hosting (.mw8 0x1400 [1]) { luma2 with busy := false }

/-- The engine changes a destination byte, and a host store changes the byte it names. -/
theorem witness_MemoryChangesOnlyWhereAllowed :
    (step memLuma2 = .next (result (step memLuma2))
      ∧ readByte (result (step memLuma2)).mem 0x1500 ≠ readByte memLuma2.mem 0x1500)
    ∧ step storing2 = .next (result (step storing2))
      ∧ readByte (result (step storing2)).mem 0x1400 ≠ readByte storing2.mem 0x1400 :=
  ⟨⟨goesOn_next (by decide +kernel), by decide +kernel⟩, goesOn_next (by decide +kernel), by decide +kernel⟩
theorem witness_EngineTurnCompletesTheCommand :
    decode split2.cmd = .ok (.split plain) ∧ Running (.split plain) split2 ∧ split2.sched = []
      ∧ { split2 with sched := [.engine] }.sched.head? = some .engine :=
  ⟨by decide, running_of_checks (by decide), by decide, by decide⟩
theorem witness_OnlyHostAccessesPastMemoryFault :
    step (hosting (.mr8 0xFFFFFFFF 2 0) State.reset) = .fault .outsideAddressSpace := by rfl

/-- Up to the last byte of memory. -/
theorem witness_HostReadsBackWhatItWrote :
    State.reset.busy = false ∧ (0xFFFFFFFC#32).toNat + 2 * [0x1234#16, 0x5678#16].length ≤ 2 ^ 32
      ∧ backed State.reset.ram ⟨(0xFFFFFFFC#32).toNat,
        (0xFFFFFFFC#32).toNat + 2 * [0x1234#16, 0x5678#16].length⟩ = true
      ∧ [0x1234#16, 0x5678#16][1]? = some 0x5678#16
      ∧ (0xFFFFFFFF#32).toNat + [0x12#8].length ≤ 2 ^ 32
      ∧ backed State.reset.ram ⟨(0xFFFFFFFF#32).toNat, (0xFFFFFFFF#32).toNat + [0x12#8].length⟩ = true
      ∧ [0x12#8][0]? = some 0x12#8 := by decide
theorem witness_HostReadsOfARunningDestinationAreFree :
    inFlight split2 = some (.split plain) ∧ (dstRange (.split plain) split2).lo ≤ (0x1100#32).toNat
      ∧ (0x1100#32).toNat + 4 ≤ (dstRange (.split plain) split2).hi
      ∧ (0x1100#32).toNat + 4 ≤ 2 ^ 32
      ∧ backed split2.ram ⟨(0x1100#32).toNat, (0x1100#32).toNat + 4⟩ = true := by decide
/-- The last source byte meets the store, and a store just past it does not. -/
theorem witness_HostStoreToARunningRangeIsRefused :
    inFlight split2 = some (.split plain)
      ∧ storedBytes (.mw8 0x1003 [0, 0]) = some (0x1003, [0, 0])
      ∧ backed split2.ram ⟨0x1003, 0x1003 + 2⟩ = true
      ∧ hostExec (.mw8 0x1003 [0, 0]) split2 = .refused .hostWriteWhileBusy
      ∧ goesOn (hostExec (.mw8 0x1004 [0, 0]) split2) = true :=
  ⟨by decide, by decide, by decide, by rfl, by decide⟩
theorem witness_HostBranchesTestTheMaskedTemporary :
    lookupKey 0 { State.reset with temps := [(0, 0x2#32)] }.temps = some 0x2#32
      ∧ 0x2#32 &&& 0x2#32 ≠ 0#32 ∧ 0x2#32 &&& 0x1#32 = 0#32 := by decide
/-- A host START while reset is asserted. -/
def heldStart : State := hosting (.wr .word 0x04 0x3) { State.reset with resetHeld := true }

theorem witness_ResetPutsEveryRegisterAtItsValue :
    inFlight State.reset = none ∧ heldStart.resetHeld = true ∧ RegistersAtReset heldStart
      ∧ heldStart.sched.headD (defaultTurn heldStart) ≠ .release
      ∧ step heldStart = .next (result (step heldStart))
      ∧ { heldStart with sched := [.reset] }.sched = .reset :: []
      ∧ { heldStart with sched := [.release] }.sched = .release :: [] :=
  ⟨by decide, by decide, by unfold RegistersAtReset; decide, by decide, goesOn_next (by decide), by decide,
    by decide⟩
theorem witness_AbortingResetFreesOnlyTheDestination :
    inFlight split2 = some (.split plain) ∧ validateCommand (.split plain) split2 = none := by decide

end Sys2Proof.Tests
end

section
/-! SUPPORT. The register window (10_state.md): which bits of a register word its reads and writes leave
out, and what a write does while BUSY = 1. -/

namespace Sys2Proof.Machine

/-- Every aligned offset past the table of R23 is reserved (R35). -/
theorem Reg.ofOffset_reserved {off : Nat} (hlo : 0x24 ≤ off) (hhi : off ≤ 0xFC) (hal : off % 4 = 0) :
    Reg.ofOffset off = some .reserved := by
  rw [Reg.ofOffset, if_neg (by omega)]
  congr 1
  iterate 9 rw [if_neg (by omega)]

/-! ## What a read leaves at 0 -/

/-- A word below `2 ^ k` has no bit from `k` on. -/
theorem and_highMask_of_lt {w : Word} {k : Nat} (h : w.toNat < 2 ^ k) :
    w &&& BitVec.allOnes 32 <<< k = 0#32 := by
  apply BitVec.eq_of_getLsbD_eq
  intro i hi
  by_cases hik : i < k
  · simp [hik]
  · have hbit : w.getLsbD i = false :=
      Nat.testBit_lt_two_pow (h.trans_le (Nat.pow_le_pow_right (by decide) (by omega)))
    simp [hbit]

/-- A 16-bit register reads 0 in bits 31:16 (R32, R33). -/
theorem setWidth_and_highHalf (h : Half) : h.setWidth 32 &&& 0xFFFF0000#32 = 0#32 :=
  and_highMask_of_lt (k := 16) (by rw [BitVec.toNat_setWidth_of_le (by decide)]; exact h.isLt)

/-- CTRL reads 0 in every bit but IRQ_EN (R26). -/
theorem ctrlWord_and_reserved (s : State) : ctrlWord s &&& 0xFFFFFFFD#32 = 0#32 := by
  rw [ctrlWord]
  cases s.irqEn <;> decide

/-- The flags and codes of STATUS take its low 12 bits (R30). -/
theorem statusWord_toNat_lt (s : State) : (statusWord s).toNat < 2 ^ 12 := by
  have hbusy := s.busy.toNat_le
  have hdone := s.done.toNat_le
  have herr := s.err.toNat_le
  have hwarn := s.warn.toNat_le
  have herrCode := s.errCode.isLt
  have hwarnCode := s.warnCode.isLt
  rw [statusWord, BitVec.toNat_ofNat]
  omega

/-! ## What a write does not look at -/

/-- A 16-bit register takes the low half of the word written (R32, R33). -/
theorem setWidth_and_lowHalf (v : Word) : (v &&& 0xFFFF#32).setWidth 16 = (v.setWidth 16 : Half) := by
  rw [BitVec.setWidth_and]
  exact BitVec.and_allOnes

/-- A STATUS write looks at bits 1, 2 and 3 of its value only (R28-R30). -/
theorem clearStatus_congr {v w : Word} (s : State) (h1 : v.getLsbD 1 = w.getLsbD 1)
    (h2 : v.getLsbD 2 = w.getLsbD 2) (h3 : v.getLsbD 3 = w.getLsbD 3) :
    clearStatus v s = clearStatus w s := by
  rw [clearStatus, clearStatus, h1, h2, h3]

/-- A CTRL write looks at bits 0 and 1 of its value only (R25, R26). -/
theorem writeReg_ctrl_congr {v w : Word} (s : State) (h0 : v.getLsbD 0 = w.getLsbD 0)
    (h1 : v.getLsbD 1 = w.getLsbD 1) : writeReg .ctrl v s = writeReg .ctrl w s := by
  rw [writeReg, writeReg, h0, h1]

/-! ## Writes while BUSY = 1 -/

/-- While BUSY = 1 only CTRL and STATUS take a write (R37). -/
theorem writeReg_of_busy {r : Reg} (v : Word) {s : State} (hb : s.busy = true) (hctrl : r ≠ .ctrl)
    (hstatus : r ≠ .status) : writeReg r v s = .next s := by
  rcases writeReg_cases r v s with ⟨hr, _⟩ | ⟨hr, _⟩ | ⟨hr, _⟩ | ⟨hidle, _⟩ | heq
  · exact absurd hr hctrl
  · exact absurd hr hctrl
  · exact absurd hr hstatus
  · rw [hb] at hidle; cases hidle
  · exact heq

/-- A START while BUSY = 1 is ignored (R25). -/
theorem start_of_busy {s : State} (hb : s.busy = true) : start s = .next s := by
  rw [start, if_pos hb]

/-- While BUSY = 1 a CTRL write sets IRQ_EN only, START or not (R25, R37). -/
theorem writeReg_ctrl_of_busy (v : Word) {s : State} (hb : s.busy = true) :
    writeReg .ctrl v s = .next { s with irqEn := v.getLsbD 1 } := by
  rw [writeReg]
  split
  · exact start_of_busy hb
  · rfl

/-! ## The obligations -/

/-- Settles O6: each register leaves out its reserved bits, on reads by the bound of its word and on
writes because only the other bits are looked at. -/
theorem reservedBitsReadZeroAndIgnoreWrites : Obligations.ReservedBitsReadZeroAndIgnoreWrites := by
  refine ⟨fun off v s hlo hhi hal => ⟨.reserved, Reg.ofOffset_reserved hlo hhi hal, rfl, rfl⟩,
    fun s => ⟨?_, ?_, ?_, ?_, ?_⟩, fun v s => ⟨?_, ?_, ?_, ?_, ?_⟩, fun v s hidle => ?_⟩
  · exact ctrlWord_and_reserved s
  · exact and_highMask_of_lt (statusWord_toNat_lt s)
  · exact setWidth_and_highHalf s.height
  · exact setWidth_and_highHalf s.width
  · exact setWidth_and_highHalf s.count
  · exact writeReg_ctrl_congr s (by simp) (by simp)
  · exact congrArg Host.Outcome.next (clearStatus_congr s (by simp) (by simp) (by simp))
  · rw [writeReg, writeReg, setWidth_and_lowHalf]
  · rw [writeReg, writeReg, setWidth_and_lowHalf]
  · rw [writeReg, writeReg, setWidth_and_lowHalf]
  · exact ⟨{ s with cmd := v }, by rw [writeReg, hidle]; rfl, rfl⟩

/-- Settles O5: VERSION has no storage, so its read is the constant and its write keeps the state. -/
theorem versionReadsOneAndIgnoresWrites : Obligations.VersionReadsOneAndIgnoresWrites :=
  ⟨by decide, fun _ _ => ⟨rfl, rfl⟩⟩

/-- Settles O10, by what a write of each register does while BUSY = 1. -/
theorem busyFreezesCommandRegistersAndIgnoresStart :
    Obligations.BusyFreezesCommandRegistersAndIgnoresStart := by
  intro v s hb
  have hfrozen (r : Reg) (hctrl : r ≠ .ctrl) (hstatus : r ≠ .status) : writeReg r v s = .next s :=
    writeReg_of_busy v hb hctrl hstatus
  refine ⟨hfrozen .cmd (by decide) (by decide), hfrozen .height (by decide) (by decide),
    hfrozen .width (by decide) (by decide), hfrozen .count (by decide) (by decide),
    hfrozen .srcBase (by decide) (by decide), hfrozen .dstBase (by decide) (by decide),
    writeReg_ctrl_of_busy v hb, clearStatus v s, rfl, hb, ?_, ?_, ?_⟩
  · intro h1
    simp [h1]
  · intro h2
    simp [h2]
  · intro h3
    simp [h3]

end Sys2Proof.Machine
end

section
/-! SUPPORT. The decoding summary of R106: what the decoder answers at each of its checks, and that the
fields of the command it accepts are the bits of the word. -/

namespace Sys2Proof

/-! ## The operation and the layout -/

theorem operationOf_of_le {n : Nat} (f : CmdFields) (h : n ≤ 4) :
    ∃ i, operationOf n f = some i ∧ i.opcode = n ∧ i.fields = f := by
  cases ho : operationOf n f with
  | some i => exact ⟨i, rfl, operationOf_eq_some.1 ho⟩
  | none =>
    obtain rfl | rfl | rfl | rfl | rfl : n = 0 ∨ n = 1 ∨ n = 2 ∨ n = 3 ∨ n = 4 := by omega
    all_goals cases ho

/-- The one command that is not well formed is LUMA with LCH = 3 (R101). -/
theorem Instr.not_wellFormed_iff (i : Instr) :
    ¬ i.wellFormed = true ↔ i.opcode = 4 ∧ i.fields.lch.code = 3 := by
  cases i with
  | luma f => cases h : f.lch <;> simp [wellFormed, opcode, fields, ChannelLayout.code, h]
  | _ => simp [wellFormed, opcode]

/-! ## The checks of the decoder, in their order (R106) -/

theorem decode_of_illegalOp {w : Word} (hop : 4 < bitField w 3 0) : decode w = .error .illegalOp := by
  rw [decode, if_pos hop]

theorem decode_of_reserved {w : Word} (hop : bitField w 3 0 ≤ 4) (hrsv : bitField w 31 15 ≠ 0) :
    decode w = .error .reserved := by
  rw [decode, if_neg (Nat.not_lt.2 hop), if_pos hrsv]

theorem decode_of_width {w : Word} (hop : bitField w 3 0 ≤ 4) (hrsv : bitField w 31 15 = 0)
    (hsw : 1 < bitField w 6 5) : decode w = .error .width := by
  rw [decode, if_neg (Nat.not_lt.2 hop), if_neg (not_not.2 hrsv), sampleWidthOf_eq_none.2 hsw]

/-- A word with legal OP, RSV and SW names one command, and only its well-formedness is left to check. -/
theorem decode_of_width_le {w : Word} (hop : bitField w 3 0 ≤ 4) (hrsv : bitField w 31 15 = 0)
    (hsw : bitField w 6 5 ≤ 1) :
    ∃ i, i.opcode = bitField w 3 0 ∧ i.fields = fieldsOf w i.fields.sw
      ∧ i.fields.sw.code = bitField w 6 5
      ∧ decode w = if i.wellFormed then .ok i else .error .lumaShape := by
  cases hs : sampleWidthOf (bitField w 6 5) with
  | none => exact absurd (sampleWidthOf_eq_none.1 hs) (Nat.not_lt.2 hsw)
  | some sw =>
    obtain ⟨i, hi, hopcode, hfields⟩ := operationOf_of_le (fieldsOf w sw) hop
    have hisw : i.fields.sw = sw := by rw [hfields]; rfl
    refine ⟨i, hopcode, by rw [hisw, hfields], by rw [hisw, sampleWidthOf_eq_some.1 hs], ?_⟩
    rw [decode, if_neg (Nat.not_lt.2 hop), if_neg (not_not.2 hrsv), hs]
    simp only [hi]

/-! ## The fields of a word as its bits (R91) -/

theorem fieldsOf_pat_code (w : Word) (sw : SampleWidth) :
    (fieldsOf w sw).pat.code = bitField w 4 4 :=
  code_patternOf (bitField_lt w 4 4)

theorem fieldsOf_rnd_code (w : Word) (sw : SampleWidth) :
    (fieldsOf w sw).rnd.code = bitField w 7 7 :=
  code_roundingOf (bitField_lt w 7 7)

theorem fieldsOf_out_code (w : Word) (sw : SampleWidth) :
    (fieldsOf w sw).out.code = bitField w 8 8 :=
  code_outputFormOf (bitField_lt w 8 8)

theorem fieldsOf_alg (w : Word) (sw : SampleWidth) :
    (fieldsOf w sw).alg = w.extractLsb' 9 3 := by
  have h : BitVec.ofNat 3 (bitField w 11 9) = BitVec.ofNat 3 (w.extractLsb' 9 3).toNat :=
    congrArg (BitVec.ofNat 3) (bitField_eq_extract w 11 9)
  rw [BitVec.ofNat_toNat, BitVec.setWidth_eq] at h
  exact h

theorem fieldsOf_batch_toNat (w : Word) (sw : SampleWidth) :
    (fieldsOf w sw).batch.toNat = bitField w 12 12 := by
  have hlt := bitField_lt w 12 12
  obtain h | h : bitField w 12 12 = 0 ∨ bitField w 12 12 = 1 := by omega
  all_goals simp [fieldsOf, h]

theorem fieldsOf_lch_code (w : Word) (sw : SampleWidth) :
    (fieldsOf w sw).lch.code = bitField w 14 13 :=
  code_channelLayoutOf (bitField_lt w 14 13)

/-- A field of one bit is 1 where the bit is set. -/
theorem bitField_eq_one_of_getLsbD {w : Word} {k : Nat} (h : w.getLsbD k = true) :
    bitField w k k = 1 := by
  rw [BitVec.getLsbD, Nat.testBit_eq_decide_div_mod_eq, decide_eq_true_iff] at h
  rwa [bitField, Nat.add_sub_cancel_left, pow_one]

end Sys2Proof

namespace Sys2Proof.Machine

/-- A START of a LUMA word with LCH = 3 reports the empty raster before the shape (R106, R250). -/
theorem start_of_lumaShape_of_empty {s : State} (hidle : s.busy = false)
    (hd : decode s.cmd = .error .lumaShape)
    (hempty : s.height = 0 ∨ s.width = 0 ∨ (s.cmd.getLsbD 12 = true ∧ s.count = 0)) :
    start s = .next (recordError .empty s) := by
  have hraster : rows s = 0 ∨ cols s = 0 ∨ (bitField s.cmd 12 12 = 1 ∧ s.count.toNat = 0) := by
    rcases hempty with h | h | ⟨hbatch, hcount⟩
    · exact .inl (by rw [rows, h]; rfl)
    · exact .inr (.inl (by rw [cols, h]; rfl))
    · exact .inr (.inr ⟨bitField_eq_one_of_getLsbD hbatch, by rw [hcount]; rfl⟩)
  have herror : wordError .lumaShape s = .empty := if_pos hraster
  rw [start, hidle, hd, ← herror]
  rfl

/-- Settles O4: the fields cut out of the word are the decoder's bit fields, and each clause is the
decoder's answer at one of its checks. -/
theorem decoderFollowsTheSummary : Obligations.DecoderFollowsTheSummary := by
  intro w
  have hop : (w.extractLsb' 0 4).toNat = bitField w 3 0 := (bitField_eq_extract w 3 0).symm
  have hsw : (w.extractLsb' 5 2).toNat = bitField w 6 5 := (bitField_eq_extract w 6 5).symm
  have hrsv : w.extractLsb' 15 17 = 0 ↔ bitField w 31 15 = 0 := by
    rw [bitField_eq_extract]; exact BitVec.toNat_eq
  have hlch : w.extractLsb' 13 2 = 3#2 ↔ bitField w 14 13 = 3 := by
    rw [bitField_eq_extract]; exact BitVec.toNat_eq
  rw [hop, hsw, ne_eq, hrsv, hlch]
  refine ⟨decode_of_illegalOp, fun hop4 => ⟨decode_of_reserved hop4, fun hrsv0 =>
    ⟨decode_of_width hop4 hrsv0, fun hsw1 => ?_⟩⟩, ?_⟩
  · obtain ⟨i, hopcode, hfields, hwidth, hdecode⟩ := decode_of_width_le hop4 hrsv0 hsw1
    have hwf : ¬ i.wellFormed = true ↔ bitField w 3 0 = 4 ∧ bitField w 14 13 = 3 := by
      rw [i.not_wellFormed_iff, hopcode, hfields, fieldsOf_lch_code]
    refine ⟨fun hshape => by rw [hdecode, if_neg (hwf.2 hshape)], fun hshape =>
      ⟨i, by rw [hdecode, if_pos (not_not.1 (mt hwf.1 hshape))], hopcode, ?_⟩⟩
    rw [hfields, fieldsOf_pat_code, fieldsOf_rnd_code, fieldsOf_out_code, fieldsOf_alg,
      fieldsOf_batch_toNat, fieldsOf_lch_code]
    exact ⟨bitField_eq_extract w 4 4, hwidth, bitField_eq_extract w 7 7, bitField_eq_extract w 8 8,
      rfl, bitField_eq_extract w 12 12, bitField_eq_extract w 14 13⟩
  · rintro s hidle rfl hd hempty
    exact start_of_lumaShape_of_empty hidle hd hempty

end Sys2Proof.Machine
end

section
/-! SUPPORT. The green merge of R140-R142: its sum is at most one more than `g1 + g2`, and halving it gives
the exact mean of an even sum and the neighbour RND selects of an odd one. -/

namespace Sys2Proof.Machine

/-! ## The widened sum (R140) -/

theorem maxSample_le (sw : SampleWidth) : maxSample sw ≤ 65535 := by
  cases sw <;> decide

theorem greenSum_comm (rnd : Rounding) (g1 g2 : Nat) : greenSum rnd g1 g2 = greenSum rnd g2 g1 := by
  cases rnd with
  | half => exact congrArg (· + 1) (Nat.add_comm g1 g2)
  | trunc => exact Nat.add_comm g1 g2

/-- RND adds at most its increment to the sum. -/
theorem greenSum_le (rnd : Rounding) (g1 g2 : Nat) : greenSum rnd g1 g2 ≤ g1 + g2 + 1 := by
  cases rnd with
  | half => exact Nat.le_refl _
  | trunc => exact Nat.le_succ _

/-- Two samples of either width and the increment fit 17 bits. -/
theorem greenSum_lt {sw : SampleWidth} {g1 g2 : Nat} (rnd : Rounding) (h1 : g1 ≤ maxSample sw)
    (h2 : g2 ≤ maxSample sw) : greenSum rnd g1 g2 < 2 ^ 17 := by
  have hsum := greenSum_le rnd g1 g2
  have hmax := maxSample_le sw
  omega

/-! ## The merged value (R141, R142) -/

theorem merge_half (g1 g2 : Nat) : merge .half g1 g2 = (g1 + g2 + 1) / 2 := rfl

theorem merge_trunc (g1 g2 : Nat) : merge .trunc g1 g2 = (g1 + g2) / 2 := rfl

theorem merge_comm (rnd : Rounding) (g1 g2 : Nat) : merge rnd g1 g2 = merge rnd g2 g1 :=
  congrArg (· / 2) (greenSum_comm rnd g1 g2)

/-- An upper bound of both samples bounds their merge: twice the bound and the increment halve to it. -/
theorem merge_le {m g1 g2 : Nat} (rnd : Rounding) (h1 : g1 ≤ m) (h2 : g2 ≤ m) :
    merge rnd g1 g2 ≤ m := by
  have hsum := greenSum_le rnd g1 g2
  rw [merge]
  omega

/-- The increment is lost in the halving of an even sum. -/
theorem two_mul_merge_of_even {g1 g2 : Nat} (rnd : Rounding) (h : (g1 + g2) % 2 = 0) :
    2 * merge rnd g1 g2 = g1 + g2 := by
  cases rnd with
  | half => rw [merge_half]; omega
  | trunc => rw [merge_trunc]; omega

theorem two_mul_merge_half_of_odd {g1 g2 : Nat} (h : (g1 + g2) % 2 = 1) :
    2 * merge .half g1 g2 = g1 + g2 + 1 := by
  rw [merge_half]
  omega

theorem two_mul_merge_trunc_of_odd {g1 g2 : Nat} (h : (g1 + g2) % 2 = 1) :
    2 * merge .trunc g1 g2 + 1 = g1 + g2 := by
  rw [merge_trunc]
  omega

/-- Equal samples merge to themselves, since their sum is even. -/
theorem merge_self (rnd : Rounding) (g : Nat) : merge rnd g g = g := by
  have hmean : 2 * merge rnd g g = g + g := two_mul_merge_of_even rnd (by omega)
  omega

/-- Settles O35: range and symmetry from the bounds of the sum, the two means by the parity of the sum. -/
theorem mergeRoundsInsideTheSampleRange : Obligations.MergeRoundsInsideTheSampleRange := by
  intro sw g1 g2 h1 h2
  refine ⟨fun rnd => ⟨?_, ?_, ?_, ?_⟩, fun heven rnd => ?_, fun hodd => ⟨?_, ?_⟩⟩
  · exact greenSum_lt rnd h1 h2
  · exact merge_le rnd h1 h2
  · exact merge_comm rnd g1 g2
  · exact merge_self rnd (maxSample sw)
  · exact two_mul_merge_of_even rnd heven
  · exact two_mul_merge_half_of_odd hodd
  · exact two_mul_merge_trunc_of_odd hodd

end Sys2Proof.Machine
end

section
/-! SUPPORT. Order 0 of the upsampler (R161, R162): an output sample is the sample at its base source row
and column, so the two output rows or columns of one base index agree. -/

namespace Sys2Proof.Machine

/-- Order 0 has no filter: it reads the base source sample (R162). -/
@[simp] theorem upsample_nearest (top h w : Nat) (Q : Nat → Nat → Nat → Nat) (y x c : Nat) :
    upsample .nearest top h w Q y x c = Q (y / 2) (x / 2) c := rfl

/-- Output indices `2i` and `2i + 1` have the base source index `i` (R161). -/
theorem baseIndex_two_mul_add {a : Nat} (i : Nat) (ha : a < 2) : (2 * i + a) / 2 = i := by
  rw [Nat.mul_add_div Nat.two_pos, Nat.div_eq_of_lt ha, Nat.add_zero]

/-- Settles O28: both indices of the block have the source pixel's as their base index. -/
theorem nearestReplicatesEachPixel : Obligations.NearestReplicatesEachPixel := by
  intro top h w Q i j a b c ha hb
  rw [upsample_nearest, baseIndex_two_mul_add i ha, baseIndex_two_mul_add j hb]

end Sys2Proof.Machine
end

section
/-! SUPPORT. The luminance (43_luminance.md): its weights add up to its divisor, so a uniform pixel gives its
own sample, and by monotonicity the uniform pixel of an upper bound gives the range. -/

namespace Sys2Proof.Machine

/-! ## The weighted sum (R190, R191) -/

theorem lumaSum_mono {r g b r' g' b' : Nat} (hr : r ≤ r') (hg : g ≤ g') (hb : b ≤ b') :
    lumaSum r g b ≤ lumaSum r' g' b' := by
  rw [lumaSum, lumaSum]
  omega

/-- The three weights add up to the divisor. -/
theorem lumaSum_self (v : Nat) : lumaSum v v v = 1000 * v + 500 := by
  rw [lumaSum]
  omega

/-- Three samples of either width and the increment fit 26 bits. -/
theorem lumaSum_lt {sw : SampleWidth} {r g b : Nat} (hr : r ≤ maxSample sw) (hg : g ≤ maxSample sw)
    (hb : b ≤ maxSample sw) : lumaSum r g b < 2 ^ 26 := by
  have hmax := maxSample_le sw
  calc lumaSum r g b ≤ lumaSum (maxSample sw) (maxSample sw) (maxSample sw) := lumaSum_mono hr hg hb
    _ = 1000 * maxSample sw + 500 := lumaSum_self _
    _ < 2 ^ 26 := by omega

/-! ## The luminance (R191, R192) -/

theorem luma_mono {r g b r' g' b' : Nat} (hr : r ≤ r') (hg : g ≤ g') (hb : b ≤ b') :
    luma r g b ≤ luma r' g' b' :=
  Nat.div_le_div_right (lumaSum_mono hr hg hb)

/-- The increment is lost in the division: it is below the divisor. -/
theorem luma_self (v : Nat) : luma v v v = v := by
  rw [luma, lumaSum_self]
  omega

/-- An upper bound of the three samples bounds their luminance. -/
theorem luma_le {m r g b : Nat} (hr : r ≤ m) (hg : g ≤ m) (hb : b ≤ m) : luma r g b ≤ m :=
  (luma_mono hr hg hb).trans_eq (luma_self m)

/-- The luminance exceeds the exact weighted mean by at most a half: a half is rounded up (R191). -/
theorem thousand_mul_luma_le (r g b : Nat) :
    1000 * luma r g b ≤ 299 * r + 587 * g + 114 * b + 500 :=
  Nat.mul_div_le (lumaSum r g b) 1000

/-- The luminance falls below the exact weighted mean by less than a half (R191). -/
theorem lt_thousand_mul_luma (r g b : Nat) :
    299 * r + 587 * g + 114 * b < 1000 * luma r g b + 500 := by
  have hdiv : lumaSum r g b < 1000 * luma r g b + 1000 := Nat.lt_mul_div_succ _ (by decide)
  rw [lumaSum] at hdiv
  omega

/-- Settles O36: the range from monotonicity and the uniform pixel of MAX, the rounding from the two bounds
of the division. -/
theorem lumaIsNearestAndMonotone : Obligations.LumaIsNearestAndMonotone := by
  refine ⟨fun sw r g b hr hg hb => ⟨?_, ?_⟩, fun r g b => ⟨?_, ?_⟩,
    luma_self, fun _ _ _ _ _ _ => luma_mono⟩
  · exact lumaSum_lt hr hg hb
  · exact luma_le hr hg hb
  · exact thousand_mul_luma_le r g b
  · exact lt_thousand_mul_luma r g b

end Sys2Proof.Machine
end

section
/-! SUPPORT. What the sub-lattice, the filter and a whole command read and write: a sub-lattice and a filter
read inside their plane, and from samples in range each command makes samples in range, so that storing them
loses nothing. -/

namespace Sys2Proof.Machine

/-! ## Sub-lattices (R120, R121) -/

theorem latticeOffset_le (pat : Pattern) (p : Nat) :
    (latticeOffset pat p).1 ≤ 1 ∧ (latticeOffset pat p).2 ≤ 1 := by
  cases pat with
  | grbg => rw [latticeOffset]; split_ifs <;> decide
  | gbrg => rw [latticeOffset]; split_ifs <;> decide

/-- Index `y * W + x` of a pixel inside the raster is one of the raster's `H * W` samples. -/
theorem rasterIndex_lt {H W y x : Nat} (hy : y < H) (hx : x < W) : y * W + x < H * W :=
  calc y * W + x < y * W + W := Nat.add_lt_add_left hx _
    _ = (y + 1) * W := (Nat.succ_mul y W).symm
    _ ≤ H * W := Nat.mul_le_mul_right W hy

/-- A sub-lattice reads samples of the raw frame only. -/
theorem lattice_congr {pat : Pattern} {H W : Nat} {raw raw' : Nat → Nat}
    (hraw : ∀ q, q < H * W → raw' q = raw q) {p i j : Nat} (hi : i < H / 2) (hj : j < W / 2) :
    lattice pat W raw' p i j = lattice pat W raw p i j := by
  obtain ⟨hrow, hcol⟩ := latticeOffset_le pat p
  exact hraw _ (rasterIndex_lt (by omega) (by omega))

/-! ## The filter (R162, R164-R166) -/

/-- Clamp-to-edge stays inside the axis (R164). -/
theorem edge_lt {n : Nat} (i : Int) (hn : 0 < n) : edge i n < n := by
  rw [edge, clampInt]
  omega

/-- The accumulator reads inside the plane, and the channel it writes (R164, R165). -/
theorem accumulate_congr {n : Order} {h w : Nat} {Q R : Nat → Nat → Nat → Nat} {y x c : Nat}
    (hh : 0 < h) (hw : 0 < w) (hQR : ∀ i j, i < h → j < w → Q i j c = R i j c) :
    accumulate n h w Q y x c = accumulate n h w R y x c := by
  have hread (a b : Int) : Q (edge a h) (edge b w) c = R (edge a h) (edge b w) c :=
    hQR _ _ (edge_lt a hh) (edge_lt b hw)
  simp only [accumulate, hread]

/-- A filtered sample is the rounded accumulator, clamped (R165, R166). -/
theorem upsample_filtered {n : Order} (hn : n ≠ .nearest) (top h w : Nat) (Q : Nat → Nat → Nat → Nat)
    (y x c : Nat) :
    upsample n top h w Q y x c
      = (clampInt ((accumulate n h w Q y x c + 2 ^ (2 * axisShift n - 1)) / 2 ^ (2 * axisShift n))
          0 top).toNat := by
  cases n with
  | nearest => exact absurd rfl hn
  | linear => rfl
  | quadratic => rfl
  | cubic => rfl

/-- Planes that agree inside, on the channel written, upsample alike. -/
theorem upsample_congr {n : Order} {top h w : Nat} {Q R : Nat → Nat → Nat → Nat} {y x c : Nat}
    (hy : y / 2 < h) (hx : x / 2 < w) (hQR : ∀ i j, i < h → j < w → Q i j c = R i j c) :
    upsample n top h w Q y x c = upsample n top h w R y x c := by
  by_cases hn : n = .nearest
  · subst hn
    exact hQR _ _ hy hx
  · rw [upsample_filtered hn, upsample_filtered hn, accumulate_congr (by omega) (by omega) hQR]

/-- An upper bound of the source samples bounds order 0, and the clamp bounds the others. -/
theorem upsample_le {top : Nat} (n : Order) (h w : Nat) {Q : Nat → Nat → Nat → Nat} (y x : Nat) {c : Nat}
    (hQ : ∀ i j, Q i j c ≤ top) : upsample n top h w Q y x c ≤ top := by
  by_cases hn : n = .nearest
  · subst hn
    exact hQ _ _
  · rw [upsample_filtered hn, clampInt]
    omega

/-! ## Every output sample is in range (R94) -/

theorem assemble_le {m : Nat} (pat : Pattern) (rnd : Rounding) (W : Nat) {raw : Nat → Nat}
    (hraw : ∀ q, raw q ≤ m) (i j c : Nat) : assemble pat rnd W raw i j c ≤ m := by
  rw [assemble]
  split_ifs
  · exact hraw _
  · exact merge_le rnd (hraw _) (hraw _)
  · exact hraw _

theorem demosaicPlane_le (f : CmdFields) (H W : Nat) {raw : Nat → Nat}
    (hraw : ∀ q, raw q ≤ maxSample f.sw) (y x c : Nat) :
    demosaicPlane f H W raw y x c ≤ maxSample f.sw :=
  upsample_le _ _ _ y x fun i j => assemble_le f.pat f.rnd W hraw i j c

theorem lumaPixel_le {m : Nat} (C : Nat) {src : Nat → Nat} (hsrc : ∀ q, src q ≤ m) (q : Nat) :
    lumaPixel C src q ≤ m := by
  rw [lumaPixel]
  split_ifs
  · exact hsrc _
  · exact luma_le (hsrc _) (hsrc _) (hsrc _)

theorem outValue_le (i : Instr) (H W : Nat) {src : Nat → Nat}
    (hsrc : ∀ q, src q ≤ maxSample i.fields.sw) (q : Nat) :
    outValue i H W src q ≤ maxSample i.fields.sw := by
  cases i with
  | demosaic f =>
    have hplane := demosaicPlane_le f H W hsrc
    rw [outValue]
    split
    · exact hplane _ _ _
    · exact luma_le (hplane _ _ _) (hplane _ _ _) (hplane _ _ _)
  | split f => exact hsrc _
  | gmerge f => exact merge_le f.rnd (hsrc _) (hsrc _)
  | upsample f =>
    rw [outValue]
    exact upsample_le _ _ _ _ _ fun _ _ => hsrc _
  | luma f => exact lumaPixel_le _ hsrc _

/-- A running command of an H x W raster leaves in frame 0 of its destination the samples of its frame
function, unreduced. -/
theorem dstSample_of_exec {i : Instr} {s t : State} {H W q : Nat} (hrun : Running i s)
    (hexec : exec i s = .next t) (hrows : rows s = H) (hcols : cols s = W) (hq : q < samplesOut i H W) :
    dstSample i s t.mem 0 q = outValue i H W (srcSample i s 0) q := by
  subst hrows hcols
  obtain rfl := Host.Outcome.next.inj ((exec_running hrun).symm.trans hexec)
  obtain ⟨_, hvalid, _⟩ := hrun
  obtain ⟨⟨_, _, hframes⟩, _⟩ := (validateCommand_none_iff i s).1 hvalid
  have hrange : outValue i (rows s) (cols s) (srcSample i s 0) q ≤ maxSample i.fields.sw :=
    outValue_le i _ _ (fun _ => sampleAt_le ..) q
  rw [complete_mem, dstSample_framesDone (Nat.pos_of_ne_zero hframes) hq,
    Nat.mod_eq_of_lt (Nat.lt_succ_of_le hrange)]

end Sys2Proof.Machine
end

section
/-! SUPPORT. DEMOSAIC as its stages (R210-R213): SPLIT's planes are the sub-lattices, GMERGE of its green
planes is channel 1 of the assembled plane, so UPSAMPLE of R, merged G and B is the plane U. -/

namespace Sys2Proof.Machine

/-! ## The stages on sample functions -/

/-- Sample (i, j) of plane p of SPLIT's output. -/
theorem outValue_split_plane (f : CmdFields) {H W : Nat} (raw : Nat → Nat) (p : Nat) {i j : Nat}
    (hi : i < H / 2) (hj : j < W / 2) :
    outValue (.split f) H W raw (p * (H / 2) * (W / 2) + (i * (W / 2) + j))
      = lattice f.pat W raw p i j := by
  have hin : i * (W / 2) + j < H / 2 * (W / 2) := rasterIndex_lt hi hj
  have hplane : 0 < H / 2 * (W / 2) := by omega
  have hcols : 0 < W / 2 := by omega
  rw [outValue, Nat.mul_assoc, Nat.mul_comm p, Nat.mul_add_div hplane, Nat.mul_add_mod,
    Nat.div_eq_of_lt hin, Nat.mod_eq_of_lt hin, Nat.mul_comm i, Nat.mul_add_div hcols, Nat.mul_add_mod,
    Nat.div_eq_of_lt hj, Nat.mod_eq_of_lt hj, Nat.add_zero, Nat.add_zero]

section
variable {f : CmdFields} {H W : Nat} {raw splitSrc greens planes : Nat → Nat}
  (hraw : ∀ q, q < H * W → splitSrc q = raw q)
  (hgreens : ∀ q, q < 2 * (H / 2) * (W / 2) → greens q = outValue (.split f) H W splitSrc q)
  (hplanes : ∀ q, q < H / 2 * (W / 2) →
    planes (q * 3) = outValue (.split f) H W splitSrc (2 * (H / 2) * (W / 2) + q)
    ∧ planes (q * 3 + 1) = outValue (.gmerge f) H W greens q
    ∧ planes (q * 3 + 2) = outValue (.split f) H W splitSrc (3 * (H / 2) * (W / 2) + q))

include hraw in
/-- SPLIT of a copy of the raw frame has the raw frame's sub-lattices as its planes. -/
theorem outValue_split_copy (p : Nat) {i j : Nat} (hi : i < H / 2) (hj : j < W / 2) :
    outValue (.split f) H W splitSrc (p * (H / 2) * (W / 2) + (i * (W / 2) + j))
      = lattice f.pat W raw p i j := by
  rw [outValue_split_plane f splitSrc p hi hj, lattice_congr hraw hi hj]

include hraw hgreens in
/-- GMERGE of SPLIT's first two planes merges the two green sub-lattices. -/
theorem outValue_gmerge_of_split {i j : Nat} (hi : i < H / 2) (hj : j < W / 2) :
    outValue (.gmerge f) H W greens (i * (W / 2) + j)
      = merge f.rnd (lattice f.pat W raw 0 i j) (lattice f.pat W raw 1 i j) := by
  have hin : i * (W / 2) + j < H / 2 * (W / 2) := rasterIndex_lt hi hj
  have htwo : 2 * (H / 2) * (W / 2) = H / 2 * (W / 2) + H / 2 * (W / 2) := by ring
  have hg1 := outValue_split_copy (f := f) hraw 0 hi hj
  have hg2 := outValue_split_copy (f := f) hraw 1 hi hj
  simp only [Nat.zero_mul, Nat.zero_add] at hg1
  rw [Nat.one_mul] at hg2
  rw [outValue, hgreens _ (by omega), hgreens _ (by omega), hg1, hg2]

include hraw hgreens hplanes in
/-- R, merged G and B interleaved are the assembled plane of the raw frame (R210). -/
theorem planes_eq_assemble {i j c : Nat} (hi : i < H / 2) (hj : j < W / 2) (hc : c < 3) :
    planes ((i * (W / 2) + j) * 3 + c) = assemble f.pat f.rnd W raw i j c := by
  obtain ⟨hred, hgreen, hblue⟩ := hplanes _ (rasterIndex_lt hi hj)
  obtain rfl | rfl | rfl : c = 0 ∨ c = 1 ∨ c = 2 := by omega
  · exact hred.trans (outValue_split_copy hraw 2 hi hj)
  · exact hgreen.trans (outValue_gmerge_of_split hraw hgreens hi hj)
  · exact hblue.trans (outValue_split_copy hraw 3 hi hj)

include hraw hgreens hplanes in
/-- UPSAMPLE of the interleaved planes is the plane U (R211). -/
theorem outValue_upsample_of_planes (hH : H % 2 = 0) (hW : W % 2 = 0) {q : Nat} (hq : q < 3 * H * W) :
    outValue (.upsample f) H W planes q = demosaicPlane f H W raw (q / 3 / W) (q / 3 % W) (q % 3) := by
  have hpixel : q / 3 < H * W := by rw [Nat.mul_assoc] at hq; omega
  have hcols : 0 < W := Nat.pos_of_lt_mul_left hpixel
  have hy : q / 3 / W < H := Nat.div_lt_of_lt_mul (by rwa [Nat.mul_comm])
  have hx : q / 3 % W < W := Nat.mod_lt _ hcols
  rw [outValue, demosaicPlane]
  exact upsample_congr (by omega) (by omega) fun i j hi hj =>
    planes_eq_assemble hraw hgreens hplanes hi hj (Nat.mod_lt q (by decide))

end

/-! ## The outputs from the plane U (R211, R212) -/

theorem outValue_demosaic_color {f : CmdFields} (hout : f.out = .color) (H W : Nat) (raw : Nat → Nat)
    (q : Nat) :
    outValue (.demosaic f) H W raw q = demosaicPlane f H W raw (q / 3 / W) (q / 3 % W) (q % 3) := by
  simp only [outValue, hout]

/-- LUMA over three channels of the plane U is DEMOSAIC's gray output. -/
theorem outValue_luma_of_demosaicPlane {f : CmdFields} (hout : f.out = .gray) {H W : Nat}
    {raw src : Nat → Nat}
    (hsrc : ∀ q, q < 3 * H * W → src q = demosaicPlane f H W raw (q / 3 / W) (q / 3 % W) (q % 3))
    {q : Nat} (hq : q < H * W) :
    outValue (.luma { f with lch := .three }) H W src q = outValue (.demosaic f) H W raw q := by
  have hchannel {c : Nat} (hc : c < 3) : src (q * 3 + c) = demosaicPlane f H W raw (q / W) (q % W) c := by
    have hpixel : (q * 3 + c) / 3 = q := by omega
    have hmod : (q * 3 + c) % 3 = c := by omega
    rw [hsrc _ (by rw [Nat.mul_assoc]; omega), hpixel, hmod]
  have hindex : q / W * W + q % W = q := Nat.div_add_mod' q W
  simp only [outValue, hout, hindex, channels, lumaPixel]
  rw [if_neg (by decide), hchannel (c := 1) (by decide), hchannel (c := 2) (by decide),
    ← hchannel (c := 0) (by decide), Nat.add_zero]

/-- The raster of a running DEMOSAIC is even (R246). -/
theorem even_raster_of_running_demosaic {f : CmdFields} {s : State} (hrun : Running (.demosaic f) s) :
    rows s % 2 = 0 ∧ cols s % 2 = 0 := by
  obtain ⟨_, hvalid, _⟩ := hrun
  obtain ⟨_, hshape, _⟩ := (validateCommand_none_iff _ s).1 hvalid
  simp only [shapeViolation, Bool.or_eq_false_iff, beq_eq_false_iff_ne] at hshape
  omega

/-- Settles O42: each command's destination holds the values of its frame function, UPSAMPLE's are the plane
U of the raw frame, and both forms of DEMOSAIC are made of U. -/
theorem unitCommandsComposeToDemosaic : Obligations.UnitCommandsComposeToDemosaic := by
  intro f s₀ s₁ s₂ s₃ t₁ t₂ t₃ _ hrun₀ hrun₁ hrun₂ hrun₃ ⟨hrows₁, hrows₂, hrows₃⟩
    ⟨hcols₁, hcols₂, hcols₃⟩ hexec₁ hexec₂ hexec₃ hraw hgreens hplanes
  obtain ⟨hH, hW⟩ := even_raster_of_running_demosaic hrun₀
  have hplane (k : Nat) : k * (rows s₀ / 2) * (cols s₀ / 2) = k * (rows s₀ / 2 * (cols s₀ / 2)) :=
    Nat.mul_assoc ..
  have hsplit {q : Nat} (hq : q < 4 * (rows s₀ / 2 * (cols s₀ / 2))) :=
    dstSample_of_exec hrun₁ hexec₁ hrows₁ hcols₁ (hq.trans_eq (hplane 4).symm)
  have hupsample (q : Nat) (hq : q < 3 * rows s₀ * cols s₀) :
      dstSample (.upsample f) s₃ t₃.mem 0 q
        = demosaicPlane f (rows s₀) (cols s₀) (srcSample (.demosaic f) s₀ 0)
            (q / 3 / cols s₀) (q / 3 % cols s₀) (q % 3) := by
    rw [dstSample_of_exec hrun₃ hexec₃ hrows₃ hcols₃ hq]
    refine outValue_upsample_of_planes (greens := srcSample (.gmerge f) s₂ 0) hraw (fun q hq => ?_)
      (fun q hq => ?_) hH hW hq
    · rw [hgreens q hq, hsplit (by rw [hplane] at hq; omega)]
    · obtain ⟨hred, hgreen, hblue⟩ := hplanes q hq
      refine ⟨?_, ?_, ?_⟩
      · rw [hred, hsplit (by rw [hplane]; omega)]
      · rw [hgreen, dstSample_of_exec hrun₂ hexec₂ hrows₂ hcols₂ hq]
      · rw [hblue, hsplit (by rw [hplane]; omega)]
  have hexec₀ := exec_running hrun₀
  refine ⟨_, hexec₀, fun hout q hq => ?_, fun hout s₄ hrun₄ hrows₄ hcols₄ hsrc =>
    ⟨_, exec_running hrun₄, fun q hq => ?_⟩⟩
  · rw [dstSample_of_exec hrun₀ hexec₀ rfl rfl (by rwa [samplesOut, if_pos hout]),
      outValue_demosaic_color hout, hupsample q hq]
  · rw [dstSample_of_exec hrun₀ hexec₀ rfl rfl (by rwa [samplesOut, hout, if_neg (by decide)]),
      dstSample_of_exec hrun₄ (exec_running hrun₄) hrows₄ hcols₄ hq]
    exact (outValue_luma_of_demosaicPlane hout
      (fun q hq => (hsrc q hq).trans (hupsample q hq)) hq).symm

end Sys2Proof.Machine
end

section
/-! SUPPORT. The irq output (R255): a level of IRQ_EN, DONE and ERR, so an update that sets one of DONE and
ERR, clears both or clears IRQ_EN fixes it. -/

namespace Sys2Proof.Machine

theorem irq_iff (s : State) : s.irq = true ↔ s.irqEn = true ∧ (s.done = true ∨ s.err = true) := by
  rw [State.irq, Bool.and_eq_true, Bool.or_eq_true]

theorem irq_of_done {s : State} (h : s.done = true) : s.irq = s.irqEn := by
  rw [State.irq, h, Bool.true_or, Bool.and_true]

theorem irq_of_err {s : State} (h : s.err = true) : s.irq = s.irqEn := by
  rw [State.irq, h, Bool.or_true, Bool.and_true]

theorem irq_of_not_done_not_err {s : State} (hd : s.done = false) (he : s.err = false) :
    s.irq = false := by
  rw [State.irq, hd, he, Bool.or_false, Bool.and_false]

theorem irq_of_disabled {s : State} (h : s.irqEn = false) : s.irq = false := by
  rw [State.irq, h, Bool.false_and]

theorem irq_recordAccept (w : Bool) (s : State) : (recordAccept w s).irq = false :=
  irq_of_not_done_not_err rfl rfl

/-- Settles O12: each update is one of the cases of the level: DONE or ERR set, both clear, or IRQ_EN 0. -/
theorem irqIsALevelOfDoneAndErr : Obligations.IrqIsALevelOfDoneAndErr := by
  refine fun s => ⟨irq_iff s, fun _ _ => irq_of_done rfl, fun _ => irq_of_err rfl,
    fun w => irq_recordAccept w s, fun v hdone herr => ?_,
    fun v hstart => ⟨?_, fun hen => irq_of_disabled hen⟩⟩
  · exact irq_of_not_done_not_err (by simp [hdone]) (by simp [herr])
  · rw [writeReg, hstart]
    rfl

end Sys2Proof.Machine
end

section
/-! SUPPORT. `validate()` of R241 and the machine's START agree: on a word that is no command `validate()`
gives the error START records, on a command it gives the answer of the command's own checks. -/

namespace Sys2Proof.Machine

/-! ## A word that is no command (R250) -/

/-- The shape error of LUMA with LCH = 3 stands behind emptiness only, in START as in R241 (R106). -/
theorem validate_of_lumaShape {s : State} (hop : rawOp s = 4) (hrsv : bitField s.cmd 31 15 = 0)
    (hsw : bitField s.cmd 6 5 ≤ 1) (hlch : bitField s.cmd 14 13 = 3) :
    validate s = some (wordError .lumaShape s) := by
  have hframes : rawFrames s = 0 ↔ bitField s.cmd 12 12 = 1 ∧ s.count.toNat = 0 := by
    rw [rawFrames]
    split_ifs with hbatch <;> simp [hbatch]
  have hshape : (rawOp s ≠ 4 ∧ (rows s % 2 = 1 ∨ cols s % 2 = 1))
      ∨ (rawOp s = 4 ∧ bitField s.cmd 14 13 = 3) := .inr ⟨hop, hlch⟩
  rw [validate, if_neg (by omega), if_neg (not_not.2 hrsv), if_neg (by omega), if_pos hshape,
    wordError, apply_ite some]
  simp only [hframes]

/-- A word the decoder rejects fails `validate()` with the error its START records. -/
theorem validate_of_decode_error {s : State} {e : DecodeError} (hd : decode s.cmd = .error e) :
    validate s = some (wordError e s) := by
  by_cases hop : 4 < bitField s.cmd 3 0
  · cases (decode_of_illegalOp hop).symm.trans hd
    exact if_pos hop
  · have hop4 : bitField s.cmd 3 0 ≤ 4 := Nat.not_lt.1 hop
    by_cases hrsv : bitField s.cmd 31 15 = 0
    · by_cases hsw : 1 < bitField s.cmd 6 5
      · cases (decode_of_width hop4 hrsv hsw).symm.trans hd
        rw [validate, rawOp, if_neg hop, if_neg (not_not.2 hrsv), if_pos hsw]
        rfl
      · have hsw1 : bitField s.cmd 6 5 ≤ 1 := Nat.not_lt.1 hsw
        obtain ⟨i, hopcode, hfields, _, hdecode⟩ := decode_of_width_le hop4 hrsv hsw1
        rw [hdecode] at hd
        split at hd
        case isTrue => cases hd
        case isFalse hwf =>
          cases hd
          obtain ⟨hluma, hlch⟩ := i.not_wellFormed_iff.1 hwf
          rw [hfields, fieldsOf_lch_code] at hlch
          exact validate_of_lumaShape (hopcode.symm.trans hluma) hrsv hsw1 hlch
    · cases (decode_of_reserved hop4 hrsv).symm.trans hd
      rw [validate, rawOp, if_neg hop, if_pos hrsv]
      rfl

/-! ## The operands of a command as the raw registers give them -/

theorem Region.overlaps_iff (r q : Region) :
    r.overlaps q = true ↔ r.lo < q.hi ∧ q.lo < r.hi := by
  rw [overlaps, Bool.and_eq_true, decide_eq_true_iff, decide_eq_true_iff]

section
variable {i : Instr} {s : State} (hd : decode s.cmd = .ok i)
include hd

theorem rawOp_of_decode : rawOp s = i.opcode :=
  (decode_eq_ok.1 hd).1

theorem rawBytes_of_decode : rawBytes s = bytesPer i.fields.sw := by
  obtain ⟨_, _, hsw, _, _⟩ := decode_eq_ok.1 hd
  rw [rawBytes, hsw]
  cases i.fields.sw <;> rfl

theorem rawFrames_of_decode : rawFrames s = frameCount i s := by
  obtain ⟨_, _, _, hfields, _⟩ := decode_eq_ok.1 hd
  rw [frameCount, hfields, rawFrames]
  simp only [fieldsOf, beq_iff_eq]

/-- LCH of a command is not 3 where it counts channels, so the raw channel count is the layout's (R100). -/
theorem rawChannels_of_decode_luma {f : CmdFields} (hi : i = .luma f) : rawChannels s = channels f.lch := by
  subst hi
  obtain ⟨_, _, _, hfields, hwf⟩ := decode_eq_ok.1 hd
  have hlch : f.lch.code = bitField s.cmd 14 13 := by
    rw [show f = fieldsOf s.cmd f.sw from hfields, fieldsOf_lch_code]
  rw [rawChannels, ← hlch]
  cases hl : f.lch with
  | unsupported => simp [Instr.wellFormed, hl] at hwf
  | one | three | four => rfl

theorem rawSamplesIn_of_decode : rawSamplesIn s = samplesIn i (rows s) (cols s) := by
  rw [rawSamplesIn, rawOp_of_decode hd]
  cases i with
  | luma f => rw [rawChannels_of_decode_luma hd rfl]; rfl
  | demosaic f | split f | gmerge f | upsample f => rfl

theorem rawSamplesOut_of_decode : rawSamplesOut s = samplesOut i (rows s) (cols s) := by
  obtain ⟨_, _, _, hfields, _⟩ := decode_eq_ok.1 hd
  rw [rawSamplesOut, rawOp_of_decode hd]
  cases i with
  | demosaic f =>
    have hcolor : f.out = .color ↔ bitField s.cmd 8 8 = 1 := by
      rw [show f = fieldsOf s.cmd f.sw from hfields]
      simp [fieldsOf, outputFormOf]
    simp only [samplesOut, hcolor]
    rfl
  | split f | gmerge f | upsample f | luma f => rfl

theorem srcBase_add_rawSrcLen : s.srcBase.toNat + rawSrcLen s = (srcRange i s).hi := by
  rw [rawSrcLen, rawFrames_of_decode hd, rawSamplesIn_of_decode hd, rawBytes_of_decode hd, Nat.mul_assoc]
  rfl

theorem dstBase_add_rawDstLen : s.dstBase.toNat + rawDstLen s = (dstRange i s).hi := by
  rw [rawDstLen, rawFrames_of_decode hd, rawSamplesOut_of_decode hd, rawBytes_of_decode hd, Nat.mul_assoc]
  rfl

/-- E_SHAPE of R241 is the command's own: the decoder has already turned away LUMA with LCH = 3. -/
theorem shapeViolation_of_decode :
    shapeViolation i s = true ↔
      (rawOp s ≠ 4 ∧ (rows s % 2 = 1 ∨ cols s % 2 = 1)) ∨ (rawOp s = 4 ∧ bitField s.cmd 14 13 = 3) := by
  obtain ⟨_, _, _, hfields, hwf⟩ := decode_eq_ok.1 hd
  have hlch : ¬ (i.opcode = 4 ∧ bitField s.cmd 14 13 = 3) := by
    rw [← fieldsOf_lch_code s.cmd i.fields.sw, ← hfields, ← i.not_wellFormed_iff, not_not]
    exact hwf
  rw [rawOp_of_decode hd, or_iff_left hlch]
  cases i with
  | luma f => simpa [shapeViolation, Instr.opcode, Instr.wellFormed] using hwf
  | demosaic f | split f | gmerge f | upsample f => simp [shapeViolation, Instr.opcode]

/-- `validate()` of a word that decodes is the checks of its command (R241). -/
theorem validate_of_decode_ok : validate s = validateCommand i s := by
  obtain ⟨_, hrsv, hsw, _, _⟩ := decode_eq_ok.1 hd
  have hop : ¬ 4 < rawOp s := by
    rw [rawOp_of_decode hd]
    exact Nat.not_lt.2 i.opcode_le
  have hwidth : ¬ 1 < bitField s.cmd 6 5 := by
    rw [hsw]
    cases i.fields.sw <;> decide
  have hu16 : bitField s.cmd 6 5 = 1 ↔ i.fields.sw = .u16 := by
    rw [hsw]
    cases i.fields.sw <;> decide
  have hoverlap : (srcRange i s).overlaps (dstRange i s) = true ↔
      s.srcBase.toNat < (dstRange i s).hi ∧ s.dstBase.toNat < (srcRange i s).hi :=
    Region.overlaps_iff ..
  rw [validate, if_neg hop, if_neg (not_not.2 hrsv), if_neg hwidth, validateCommand]
  simp only [rawFrames_of_decode hd, srcBase_add_rawSrcLen hd, dstBase_add_rawDstLen hd, hu16, hoverlap,
    shapeViolation_of_decode hd]

end

/-! ## START while BUSY = 0 (R240) -/

theorem start_of_decode_ok {i : Instr} {s : State} (hidle : s.busy = false) (hd : decode s.cmd = .ok i) :
    start s = startPhase i s := by
  rw [start, hidle, hd, ← exec_idle i hidle]
  rfl

theorem start_of_decode_error {e : DecodeError} {s : State} (hidle : s.busy = false)
    (hd : decode s.cmd = .error e) : start s = .next (recordError (wordError e s) s) := by
  rw [start, hidle, hd]
  rfl

/-- A START that `validate()` fails records its error (R251). -/
theorem start_of_validate_some {s : State} {e : ErrCode} (hidle : s.busy = false)
    (hv : validate s = some e) : start s = .next (recordError e s) := by
  cases hd : decode s.cmd with
  | error d =>
    cases (validate_of_decode_error hd).symm.trans hv
    exact start_of_decode_error hidle hd
  | ok i =>
    rw [validate_of_decode_ok hd] at hv
    rw [start_of_decode_ok hidle hd, startPhase, hv]

/-- A word that `validate()` passes is a command, and its checks pass. -/
theorem decode_of_validate_none {s : State} (hv : validate s = none) :
    ∃ i, decode s.cmd = .ok i ∧ validateCommand i s = none := by
  cases hd : decode s.cmd with
  | error d => cases (validate_of_decode_error hd).symm.trans hv
  | ok i => exact ⟨i, rfl, (validate_of_decode_ok hd).symm.trans hv⟩

/-- A command whose checks pass and whose ranges are backed is accepted (R252). -/
theorem start_of_validateCommand_none {i : Instr} {s : State} (hidle : s.busy = false)
    (hd : decode s.cmd = .ok i) (hv : validateCommand i s = none)
    (hb : rangesBacked i s = true) : start s = .next (recordAccept (warns i) s) := by
  rw [start_of_decode_ok hidle hd, startPhase, hv]
  exact if_pos hb

/-! ## The warning (R252) -/

/-- W_ALG_FALLBACK goes by OP and ALG. -/
theorem warns_iff (i : Instr) :
    warns i = true ↔ (i.opcode = 0 ∨ i.opcode = 3) ∧ 4 ≤ i.fields.alg.toNat := by
  cases i with
  | demosaic f | split f | gmerge f | upsample f | luma f => simp [warns, Instr.opcode, Instr.fields]

/-- ALG 4..7 falls back to order 0 (R98). -/
theorem effectiveOrder_of_four_le {alg : BitVec 3} (h : 4 ≤ alg.toNat) : effectiveOrder alg = .nearest := by
  have hne {n : BitVec 3} (hn : n.toNat < 4) : alg ≠ n := by
    rintro rfl
    omega
  rw [effectiveOrder, if_neg (hne (by decide)), if_neg (hne (by decide)), if_neg (hne (by decide))]

theorem alg_of_decode {w : Word} {i : Instr} (hd : decode w = .ok i) : i.fields.alg = w.extractLsb' 9 3 := by
  obtain ⟨_, _, _, hfields, _⟩ := decode_eq_ok.1 hd
  rw [hfields, fieldsOf_alg]

/-! ## The obligations -/

/-- Settles O14: a START that `validate()` fails is `recordError`, whose code is the table's. -/
theorem failedStartRecordsOnlyTheError : Obligations.FailedStartRecordsOnlyTheError := by
  intro s e hidle hv
  rw [start_of_validate_some hidle hv]
  cases e <;> rfl

/-- Settles O15: the word decodes and its checks pass, so START is `recordAccept` of the command's
warning, which goes by the word's OP and ALG. -/
theorem acceptedStartRecordsTheWarning : Obligations.AcceptedStartRecordsTheWarning := by
  intro s hidle hv hbacked
  obtain ⟨i, hd, hvi⟩ := decode_of_validate_none hv
  have hop : (s.cmd.extractLsb' 0 4).toNat = i.opcode :=
    (bitField_eq_extract s.cmd 3 0).symm.trans (rawOp_of_decode hd)
  have hwarns := warns_iff i
  rw [alg_of_decode hd] at hwarns
  refine ⟨warns i, by rw [hop]; exact hwarns, fun hw => ?_,
    start_of_validateCommand_none hidle hd hvi (hbacked i hd), irq_recordAccept _ s⟩
  obtain ⟨_, halg⟩ := hwarns.1 hw
  exact effectiveOrder_of_four_le halg

end Sys2Proof.Machine
end

section
/-! SUPPORT. START after reset (R282): the all-zero CMD is a well-formed DEMOSAIC, so the first check of
R241 it fails is emptiness. -/

namespace Sys2Proof.Machine

/-- The all-zero CMD passes the OP, reserved and width checks, and a raster without rows is empty (R241). -/
theorem validate_of_cmd_zero_of_rows_zero {s : State} (hcmd : s.cmd = 0#32) (hrows : rows s = 0) :
    validate s = some .empty := by
  have hop : ¬ 4 < rawOp s := by
    rw [rawOp, hcmd]
    decide
  have hrsv : bitField s.cmd 31 15 = 0 := by
    rw [hcmd]
    decide
  have hwidth : ¬ 1 < bitField s.cmd 6 5 := by
    rw [hcmd]
    decide
  rw [validate, if_neg hop, if_neg (not_not.2 hrsv), if_neg hwidth, if_pos (.inl hrows)]

/-- Settles O16: the START is a failed one with E_EMPTY, and DONE, WARN and WARNCODE, which `recordError`
clears, are already clear. -/
theorem startWithResetRegistersFailsEmpty : Obligations.StartWithResetRegistersFailsEmpty := by
  intro s
  have hv : validate (resetRegisters s) = some .empty :=
    validate_of_cmd_zero_of_rows_zero (resetRegisters_cmd s) rfl
  refine ⟨start_of_validate_some (resetRegisters_busy s) hv, ?_, resetRegisters_mem s⟩
  simp [readReg, statusWord]

end Sys2Proof.Machine
end

section
/-! SUPPORT. Assembling and decoding are inverse (R91, R103, R106): each field of an assembled word is the
code it was assembled from, and a word without reserved bits is the sum of its fields. -/

namespace Sys2Proof

/-! ## The codes fit their fields -/

theorem Pattern.code_lt (p : Pattern) : p.code < 2 := by cases p <;> decide
theorem SampleWidth.code_lt (sw : SampleWidth) : sw.code < 2 := by cases sw <;> decide
theorem Rounding.code_lt (r : Rounding) : r.code < 2 := by cases r <;> decide
theorem OutputForm.code_lt (o : OutputForm) : o.code < 2 := by cases o <;> decide
theorem ChannelLayout.code_lt (l : ChannelLayout) : l.code < 4 := by cases l <;> decide

/-! ## The fields of an assembled word -/

/-- Every field of an assembled word is the code of the command's field: the fields do not overlap. -/
theorem bitFields_encode (i : Instr) :
    bitField (encode i) 4 4 = i.fields.pat.code ∧ bitField (encode i) 6 5 = i.fields.sw.code
      ∧ bitField (encode i) 7 7 = i.fields.rnd.code ∧ bitField (encode i) 8 8 = i.fields.out.code
      ∧ bitField (encode i) 11 9 = i.fields.alg.toNat
      ∧ bitField (encode i) 12 12 = i.fields.batch.toNat
      ∧ bitField (encode i) 14 13 = i.fields.lch.code := by
  have hop := i.opcode_le
  have hpat := i.fields.pat.code_lt
  have hsw := i.fields.sw.code_lt
  have hrnd := i.fields.rnd.code_lt
  have hout := i.fields.out.code_lt
  have halg := i.fields.alg.isLt
  have hbatch := i.fields.batch.toNat_le
  have hlch := i.fields.lch.code_lt
  simp only [bitField, encode_toNat, CmdFields.bits]
  refine ⟨?_, ?_, ?_, ?_, ?_, ?_, ?_⟩ <;> omega

/-- The fields the decoder cuts out of an assembled word are the command's. -/
theorem fieldsOf_encode (i : Instr) : fieldsOf (encode i) i.fields.sw = i.fields := by
  obtain ⟨hpat, _, hrnd, hout, halg, hbatch, hlch⟩ := bitFields_encode i
  have hbit (b : Bool) : (b.toNat == 1) = b := by cases b <;> rfl
  rw [fieldsOf, hpat, hrnd, hout, halg, hbatch, hlch, patternOf_code, roundingOf_code,
    outputFormOf_code, channelLayoutOf_code, BitVec.ofNat_toNat, BitVec.setWidth_eq, hbit]

/-- Settles O2: the assembled word passes each check of the decoder, with the command's own fields. -/
theorem decodeOfEncodeIsTheCommand : Obligations.DecodeOfEncodeIsTheCommand := by
  intro i hwf
  obtain ⟨hop, hrsv⟩ := Laws.EncodedOp.holds i
  obtain ⟨_, hsw, _⟩ := bitFields_encode i
  exact decode_eq_ok.2 ⟨hop, hrsv, hsw, (fieldsOf_encode i).symm, hwf⟩

/-! ## A word from its fields -/

/-- A word without reserved bits is its OP and its fields at their positions (R91). -/
theorem toNat_eq_sum_of_bitFields {w : Word} (hrsv : bitField w 31 15 = 0) :
    w.toNat = bitField w 3 0 + (bitField w 4 4 * 2 ^ 4 + bitField w 6 5 * 2 ^ 5 + bitField w 7 7 * 2 ^ 7
      + bitField w 8 8 * 2 ^ 8 + bitField w 11 9 * 2 ^ 9 + bitField w 12 12 * 2 ^ 12
      + bitField w 14 13 * 2 ^ 13) := by
  have hlt := w.isLt
  simp only [bitField] at hrsv ⊢
  omega

/-- The bits assembled from the fields of a word are the word's fields at their positions. -/
theorem bits_fieldsOf (w : Word) (sw : SampleWidth) :
    (fieldsOf w sw).bits = bitField w 4 4 * 2 ^ 4 + sw.code * 2 ^ 5 + bitField w 7 7 * 2 ^ 7
      + bitField w 8 8 * 2 ^ 8 + bitField w 11 9 * 2 ^ 9 + bitField w 12 12 * 2 ^ 12
      + bitField w 14 13 * 2 ^ 13 := by
  have halg : (fieldsOf w sw).alg.toNat = bitField w 11 9 := by
    rw [fieldsOf_alg]
    exact (bitField_eq_extract w 11 9).symm
  rw [CmdFields.bits, fieldsOf_pat_code, fieldsOf_rnd_code, fieldsOf_out_code, halg,
    fieldsOf_batch_toNat, fieldsOf_lch_code]
  rfl

/-- Settles O3: the accepted word has no reserved bit, so it is the sum of the fields it decodes to. -/
theorem encodeOfDecodeIsTheWord : Obligations.EncodeOfDecodeIsTheWord := by
  intro w i hd
  obtain ⟨hop, hrsv, hsw, hfields, hwf⟩ := decode_eq_ok.1 hd
  refine ⟨BitVec.eq_of_toNat_eq ?_, hwf⟩
  rw [encode_toNat, hfields, bits_fieldsOf, ← hsw, ← hop]
  exact (toNat_eq_sum_of_bitFields hrsv).symm

/-- Settles O1: the decoder computes each of the ten words. -/
theorem sampleWordsDecodeAsWritten : Obligations.SampleWordsDecodeAsWritten := by
  refine ⟨?_, ?_, ?_, ?_, ?_, ?_, ?_, ?_, ?_, ?_⟩ <;> decide

end Sys2Proof
end

section
/-! SUPPORT. START and the command registers, stated of `validate()` and of every command (R240, R241, R252):
which registers the checks read, what an idle `exec` answers, and the soundness of accepted ranges. -/

namespace Sys2Proof.Machine

/-! ## START against `validate()` -/

/-- `validate()` reads CMD, HEIGHT, WIDTH, COUNT, SRC_BASE and DST_BASE only (R240). -/
theorem validate_congr {s t : State} (hcmd : t.cmd = s.cmd) (hh : t.height = s.height)
    (hw : t.width = s.width) (hc : t.count = s.count) (hs : t.srcBase = s.srcBase)
    (hd : t.dstBase = s.dstBase) : validate t = validate s :=
  calc validate t = validate { t with cmd := s.cmd, height := s.height, width := s.width, count := s.count
                                      srcBase := s.srcBase, dstBase := s.dstBase } := by
        rw [← hcmd, ← hh, ← hw, ← hc, ← hs, ← hd]
    _ = validate s := rfl

/-- The warning of a decoded command by the raw OP and ALG of its word (R252). -/
theorem warns_of_decode {i : Instr} {s : State} (hd : decode s.cmd = .ok i) :
    warns i = decide ((rawOp s = 0 ∨ rawOp s = 3) ∧ 4 ≤ (s.cmd.extractLsb' 9 3).toNat) := by
  have hwarns := warns_iff i
  rw [alg_of_decode hd, ← rawOp_of_decode hd] at hwarns
  rw [Bool.eq_iff_iff, decide_eq_true_iff]
  exact hwarns

/-- A command whose checks pass but whose ranges are not backed is refused (R65, log 8). -/
theorem startPhase_unbacked {i : Instr} {s : State} (hv : validateCommand i s = none)
    (hb : rangesBacked i s = false) : startPhase i s = .refused .unbackedMemory := by
  rw [startPhase, hv, hb]
  rfl

/-- Settles O13: a failing check is recorded, a passing word decodes to a command whose START is accepted or
refused by its ranges alone. -/
theorem startFollowsValidate : Obligations.StartFollowsValidate := by
  refine ⟨fun s t hcmd hh hw hc hs hd => validate_congr hcmd hh hw hc hs hd,
    fun s hidle => ⟨fun e hv => start_of_validate_some hidle hv, fun hv => ?_⟩⟩
  obtain ⟨i, hd, hvi⟩ := decode_of_validate_none hv
  refine ⟨i, hd, fun hb => ?_, fun hb => ?_⟩
  · rw [start_of_validateCommand_none hidle hd hvi hb, warns_of_decode hd]
  · rw [start_of_decode_ok hidle hd, startPhase_unbacked hvi hb]

/-- Settles O17: an idle command's `exec` is its START, in the three cases of its checks and ranges. -/
theorem everyCommandStartsOrFails : Obligations.EveryCommandStartsOrFails := by
  intro i s hidle
  rw [exec_idle i hidle]
  refine ⟨fun hv hb => ?_, fun e hv => ?_, fun hv hb => startPhase_unbacked hv hb⟩
  · rw [startPhase, hv]
    exact if_pos hb
  · rw [startPhase, hv]
    rfl

/-! ## Refusal for unbacked memory -/

/-- A command whose checks pass is refused for its ranges alone, idle or in flight (R65, log 8). -/
theorem exec_unbacked_iff {i : Instr} {s : State} (hv : validateCommand i s = none) :
    exec i s = .refused .unbackedMemory ↔ rangesBacked i s = false := by
  cases hb : rangesBacked i s with
  | false =>
    refine iff_of_true ?_ rfl
    cases hbusy : s.busy with
    | false => rw [exec_idle i hbusy, startPhase_unbacked hv hb]
    | true =>
      rw [exec_eq_command, command, hbusy, if_pos rfl, enginePhase, hv, hb]
      rfl
  | true =>
    refine iff_of_false (fun hexec => ?_) (by decide)
    rcases (exec_stop_cases i s).2 _ hexec with ⟨hr, _⟩ | ⟨_, _, hb'⟩
    · cases hr
    · cases hb.symm.trans hb'

/-- Both ranges are backed unless a byte of one is outside the platform's regions. -/
theorem rangesBacked_eq_false_iff (i : Instr) (s : State) :
    rangesBacked i s = false ↔
      ∃ a, ((srcRange i s).has a = true ∨ (dstRange i s).has a = true) ∧ anyHas s.ram a = false := by
  rw [← Bool.not_eq_true, rangesBacked_iff, backed_iff, backed_iff, ← forall_and, not_forall]
  refine exists_congr fun a => ?_
  rw [← or_imp, Classical.not_imp, Bool.not_eq_true]

/-- Settles O20: refusal is a range not backed, which is a byte no region of the platform has. -/
theorem unbackedCommandIsRefused : Obligations.UnbackedCommandIsRefused := fun i s hv =>
  (exec_unbacked_iff hv).trans (rangesBacked_eq_false_iff i s)

/-! ## The ranges of an accepted command -/

theorem Running.busy {i : Instr} {s : State} (h : Running i s) : s.busy = true := h.1

theorem Running.valid {i : Instr} {s : State} (h : Running i s) : validateCommand i s = none := h.2.1

/-- E_SHAPE passed: even dimensions for all but LUMA (R246). -/
theorem even_of_shape {i : Instr} {s : State} (h : shapeViolation i s = false) (hop : i.opcode ≠ 4) :
    rows s % 2 = 0 ∧ cols s % 2 = 0 := by
  cases i with
  | luma f => exact absurd rfl hop
  | demosaic f | split f | gmerge f | upsample f =>
    simp only [shapeViolation, Bool.or_eq_false_iff, beq_eq_false_iff_ne] at h
    omega

/-- E_SHAPE passed: LUMA has one, three or four channels (R246). -/
theorem layout_of_shape {f : CmdFields} {s : State} (h : shapeViolation (.luma f) s = false) :
    f.lch = .one ∨ f.lch = .three ∨ f.lch = .four := by
  rw [shapeViolation] at h
  cases hl : f.lch with
  | unsupported => rw [hl] at h; cases h
  | one => exact .inl rfl
  | three => exact .inr (.inl rfl)
  | four => exact .inr (.inr rfl)

/-- A command that is neither empty nor of an illegal shape reads and writes samples in every frame. -/
theorem samples_pos {i : Instr} {s : State} (hH : rows s ≠ 0) (hW : cols s ≠ 0)
    (hshape : shapeViolation i s = false) :
    0 < samplesIn i (rows s) (cols s) ∧ 0 < samplesOut i (rows s) (cols s) := by
  have hrows : 0 < rows s := Nat.pos_of_ne_zero hH
  have hcols : 0 < cols s := Nat.pos_of_ne_zero hW
  have hhalf (hop : i.opcode ≠ 4) : 0 < rows s / 2 ∧ 0 < cols s / 2 := by
    have heven := even_of_shape hshape hop
    omega
  cases i with
  | demosaic f =>
    refine ⟨Nat.mul_pos hrows hcols, ?_⟩
    rw [samplesOut]
    split_ifs <;> positivity
  | split f =>
    obtain ⟨h1, h2⟩ := hhalf (by simp [Instr.opcode])
    exact ⟨Nat.mul_pos hrows hcols, by rw [samplesOut]; positivity⟩
  | gmerge f =>
    obtain ⟨h1, h2⟩ := hhalf (by simp [Instr.opcode])
    exact ⟨by rw [samplesIn]; positivity, Nat.mul_pos h1 h2⟩
  | upsample f =>
    obtain ⟨h1, h2⟩ := hhalf (by simp [Instr.opcode])
    exact ⟨by rw [samplesIn]; positivity, by rw [samplesOut]; positivity⟩
  | luma f =>
    have hC : 0 < channels f.lch := by
      rcases layout_of_shape hshape with h | h | h <;> rw [h] <;> decide
    exact ⟨by rw [samplesIn]; positivity, Nat.mul_pos hrows hcols⟩

/-- Settles O18: each clause is a check of R241 passed, and a frame with samples makes a range non-empty. -/
theorem acceptedCommandHasSoundRanges : Obligations.AcceptedCommandHasSoundRanges := by
  intro i s hv
  obtain ⟨⟨hH, hW, hN⟩, hshape, halign, ⟨hsrc, hdst⟩, _⟩ := (validateCommand_none_iff i s).1 hv
  obtain ⟨hin, hout⟩ := samples_pos hH hW hshape
  have hlen {n : Nat} (hn : 0 < n) : 0 < frameCount i s * (n * bytesPer i.fields.sw) :=
    Nat.mul_pos (Nat.pos_of_ne_zero hN) (Nat.mul_pos hn (bytesPer_pos _))
  refine ⟨Nat.lt_add_of_pos_right (hlen hin), hsrc, Nat.lt_add_of_pos_right (hlen hout), hdst, ?_, ?_,
    even_of_shape hshape⟩
  · rintro a ⟨ha, ha'⟩
    cases (source_outside_destination hv ha).symm.trans ha'
  · intro hsw
    have hodd : ¬ (s.srcBase.toNat % 2 = 1 ∨ s.dstBase.toNat % 2 = 1) := fun h => halign ⟨hsw, h⟩
    simp only [srcRange, dstRange]
    omega

/-! ## Unused fields -/

/-- Settles O19: a command's meaning computes to the same term whatever its unused fields hold, so they can be
replaced by those of the other command. -/
theorem unusedFieldsHaveNoEffect : Obligations.UnusedFieldsHaveNoEffect := by
  intro f g s hsw hbatch
  refine ⟨fun hpat hrnd hout halg => ?_, fun hpat => ?_, fun hrnd => ?_, fun halg => ?_, fun hlch => ?_⟩
  · calc exec (.demosaic f) s = exec (.demosaic { f with lch := g.lch }) s := rfl
      _ = exec (.demosaic g) s := by rw [hsw, hbatch, hpat, hrnd, hout, halg]
  · calc exec (.split f) s
        = exec (.split { f with rnd := g.rnd, out := g.out, alg := g.alg, lch := g.lch }) s := rfl
      _ = exec (.split g) s := by rw [hsw, hbatch, hpat]
  · calc exec (.gmerge f) s
        = exec (.gmerge { f with pat := g.pat, out := g.out, alg := g.alg, lch := g.lch }) s := rfl
      _ = exec (.gmerge g) s := by rw [hsw, hbatch, hrnd]
  · calc exec (.upsample f) s
        = exec (.upsample { f with pat := g.pat, rnd := g.rnd, out := g.out, lch := g.lch }) s := rfl
      _ = exec (.upsample g) s := by rw [hsw, hbatch, halg]
  · calc exec (.luma f) s
        = exec (.luma { f with pat := g.pat, rnd := g.rnd, out := g.out, alg := g.alg }) s := rfl
      _ = exec (.luma g) s := by rw [hsw, hbatch, hlch]

end Sys2Proof.Machine
end

section
/-! SUPPORT. Everything a step changes, flat: one constructor for each update a turn can make, and the one
lemma that a step with a next state is one of them. The whole-machine rules are read off it. -/

namespace Sys2Proof.Machine

/-- The state whose turn has been taken off the list. -/
abbrev popTurn (s : State) : State := { s with sched := s.sched.tail }

/-- What the turn `τ` taken in state `u` can lead to, beside a stop. -/
inductive TurnEffect (u : State) : Turn → State → Prop
  /-- The agent changes nothing but the host's own fields and what it may rely on. -/
  | quiet (τ : Turn) (pc : Nat) (temps : List (Nat × Word)) (lists : List (Nat × List Half))
      (draws : Nat) (fresh : List Region) :
      TurnEffect u τ
        { u with hostPc := pc, temps := temps, lists := lists, draws := draws, fresh := fresh }
  /-- The host stores bytes (R104). -/
  | store (st : HostStmt) (a : Nat) (bs : List Byte) (hst : u.prog[u.hostPc]? = some st)
      (hbytes : storedBytes st = some (a, bs)) (hroom : a + bs.length ≤ Config.addrSpace) :
      TurnEffect u .host (stored a bs (advance u))
  /-- A CTRL write sets IRQ_EN and starts nothing (R26, R37). -/
  | setIrqEn (hheld : u.resetHeld = false) (en : Bool) :
      TurnEffect u .host { advance u with irqEn := en }
  /-- A START fails (R251). -/
  | fail (hheld : u.resetHeld = false) (hidle : u.busy = false) (en : Bool) (e : ErrCode) :
      TurnEffect u .host (recordError e { advance u with irqEn := en })
  /-- A START is accepted (R252). -/
  | accept (hheld : u.resetHeld = false) (hidle : u.busy = false) (v : Word) (i : Instr)
      (hst : u.prog[u.hostPc]? = some (.wr .word 0x04 v)) (hv : v.getLsbD 0 = true)
      (hd : decode u.cmd = .ok i) (hvalid : validateCommand i u = none)
      (hrun : Running i (recordAccept (warns i) { advance u with irqEn := v.getLsbD 1 })) :
      TurnEffect u .host (recordAccept (warns i) { advance u with irqEn := v.getLsbD 1 })
  /-- A STATUS write clears flags (R253). -/
  | clear (hheld : u.resetHeld = false) (v : Word) : TurnEffect u .host (clearStatus v (advance u))
  /-- A write of a command register while BUSY = 0 (R31-R34). -/
  | load (hheld : u.resetHeld = false) (hidle : u.busy = false) (c : Word) (h w n : Half) (sb db : Word) :
      TurnEffect u .host
        { advance u with cmd := c, height := h, width := w, count := n, srcBase := sb, dstBase := db }
  /-- The engine completes the command in flight (R215). -/
  | complete (i : Instr) (hfly : inFlight u = some i) (hrun : Running i u) :
      TurnEffect u .engine (complete (dstRange i u) (framesDone i u (frameCount i u)) u)
  /-- Reset is asserted (R280). -/
  | assertReset : TurnEffect u .reset (assertReset u)
  /-- Reset is released (R280). -/
  | release : TurnEffect u .release (releaseReset u)

/-- The state itself is a quiet effect. -/
theorem TurnEffect.refl (u : State) (τ : Turn) : TurnEffect u τ u :=
  .quiet τ u.hostPc u.temps u.lists u.draws u.fresh

/-- CTRL stands at 0x04 only (R23). -/
theorem Reg.offset_of_ctrl {off : Nat} (h : Reg.ofOffset off = some .ctrl) : off = 0x04 := by
  rw [Reg.ofOffset] at h
  split at h
  · cases h
  · have hreg := Option.some.inj h
    by_contra hne
    rw [if_neg hne] at hreg
    split_ifs at hreg

/-- A register write of the host as a turn's effect. -/
theorem turnEffect_of_writeReg {u t : State} {off : Nat} {v : Word} {r : Reg} (hheld : u.resetHeld = false)
    (hst : u.prog[u.hostPc]? = some (.wr .word off v)) (hr : Reg.ofOffset off = some r)
    (h : writeReg r v (advance u) = .next t) : TurnEffect u .host t := by
  rcases writeReg_cases r v (advance u) with
    ⟨hctrl, hv, e⟩ | ⟨_, _, e⟩ | ⟨_, e⟩ | ⟨hidle, c, ht, w, n, sb, db, e⟩ | e
  · rw [e] at h
    rcases start_next_cases h with
      ⟨_, rfl⟩ | ⟨hidle, err, rfl⟩ | ⟨hidle, i, hd, hvalid, hbacked, rfl⟩
    · exact .setIrqEn hheld _
    · exact .fail hheld hidle _ err
    · obtain rfl := Reg.offset_of_ctrl (hctrl ▸ hr)
      refine .accept hheld hidle v i hst hv hd ?_ (running_recordAccept _ hvalid hbacked)
      rw [← hvalid]
      exact validateCommand_congr rfl rfl rfl rfl rfl
  · cases e.symm.trans h
    exact .setIrqEn hheld _
  · cases e.symm.trans h
    exact .clear hheld v
  · cases e.symm.trans h
    exact .load hheld hidle c ht w n sb db
  · cases e.symm.trans h
    exact .quiet .host (u.hostPc + 1) u.temps u.lists u.draws u.fresh

/-- The host's turn as an effect (R104). -/
theorem turnEffect_of_hostTurn {u t : State} (h : hostTurn u = .next t) : TurnEffect u .host t := by
  rw [hostTurn] at h
  split at h
  case h_1 st hst =>
    rcases hostExec_cases h with
      ⟨pc, temps, lists, draws, fresh, rfl⟩ | ⟨hheld, off, v, r, rfl, hr, hw⟩
      | ⟨a, bs, hbytes, hroom, _, rfl⟩
    · exact .quiet .host pc temps lists draws fresh
    · exact turnEffect_of_writeReg hheld hst hr hw
    · exact .store st a bs hst hbytes hroom
  case h_2 =>
    cases h
    exact .refl u .host

/-- Every turn with a next state is one of the effects. -/
theorem turnEffect_of_turnOf {u t : State} {τ : Turn} (h : turnOf τ u = .next t) : TurnEffect u τ t := by
  cases τ with
  | host => exact turnEffect_of_hostTurn h
  | engine =>
    rcases engineTurn_next h with ⟨_, rfl⟩ | ⟨i, hfly, hrun, rfl⟩
    · exact .refl _ .engine
    · exact .complete i hfly hrun
  | reset => cases h; exact .assertReset
  | release => cases h; exact .release

/-- A step with a next state is an effect of the turn whose it is. -/
theorem turnEffect_of_step {s t : State} (h : step s = .next t) :
    ∃ τ, s.sched.headD (defaultTurn s) = τ ∧ TurnEffect (popTurn s) τ t :=
  ⟨_, rfl, turnEffect_of_turnOf ((step_eq s).symm.trans h)⟩

/-! ## The state after reset is asserted -/

theorem RegistersAtReset.busy {t : State} (h : RegistersAtReset t) : t.busy = false := h.2.1

theorem RegistersAtReset.done {t : State} (h : RegistersAtReset t) : t.done = false := h.2.2.1

theorem registersAtReset_assertReset (u : State) : RegistersAtReset (assertReset u) := by
  obtain ⟨m, d, e, _⟩ := assertReset_spec u
  rw [e]
  exact ⟨rfl, rfl, rfl, rfl, rfl, rfl, rfl, rfl, rfl, rfl, rfl, rfl, rfl⟩

theorem resetHeld_assertReset (u : State) : (assertReset u).resetHeld = true := by
  obtain ⟨m, d, e, _⟩ := assertReset_spec u
  rw [e]

/-- An aborting reset changes the destination only, inside the address space (R281). -/
theorem assertReset_mem (u : State) :
    (inFlight u = none ∧ (assertReset u).mem = u.mem)
      ∨ ∃ i, inFlight u = some i
          ∧ (assertReset u).mem = scramble u.draws (clip (dstRange i u)) u.mem := by
  obtain ⟨m, d, e, hm⟩ := assertReset_spec u
  rw [e]
  exact hm

theorem flagsOk_of_registersAtReset {t : State} (h : RegistersAtReset t) : FlagsOk t := by
  obtain ⟨_, hbusy, hdone, herr, hwarn, hec, hwc, _⟩ := h
  simp [FlagsOk, hbusy, hdone, herr, hwarn, hec, hwc]

theorem inFlightOk_of_idle {t : State} (h : t.busy = false) : InFlightOk t := by
  intro hbusy
  rw [h] at hbusy
  cases hbusy

theorem resetOk_of_released {t : State} (h : t.resetHeld = false) : ResetOk t := by
  intro hheld
  rw [h] at hheld
  cases hheld

/-! ## The invariant, update by update -/

theorem ErrCode.code_ne_zero (e : ErrCode) : e.code ≠ 0#4 := by cases e <;> decide

theorem ErrCode.code_le (e : ErrCode) : e.code.toNat ≤ 8 := by cases e <;> decide

/-- A running command is in flight legally when CMD holds it. -/
theorem inFlightOk_of_running {i : Instr} {t : State} (hd : decode t.cmd = .ok i) (h : Running i t) :
    InFlightOk t := fun _ => ⟨i, hd, h⟩

/-- The command in flight reads BUSY, the command registers and the platform only. -/
theorem inFlightOk_congr {s t : State} (h : InFlightOk s) (hb : t.busy = s.busy) (hcmd : t.cmd = s.cmd)
    (hh : t.height = s.height) (hw : t.width = s.width) (hc : t.count = s.count)
    (hs : t.srcBase = s.srcBase) (hd : t.dstBase = s.dstBase) (hr : t.ram = s.ram) : InFlightOk t := by
  intro hbusy
  obtain ⟨i, hdec, hrun⟩ := h (hb ▸ hbusy)
  exact ⟨i, hcmd ▸ hdec, (running_congr hb hh hw hc hs hd hr).2 hrun⟩

/-- The invariant looks at no field of the host's, of its interleaving or of what it may rely on, and at
memory only through its canonical form. -/
theorem Inv.of_host_fields {u : State} (h : Inv u) {m : List Host.Cell} (hm : Memory.wf m)
    (fresh stale : List Region) (draws : Nat) (sched : List Turn) (pc : Nat) (temps : List (Nat × Word))
    (lists : List (Nat × List Half)) :
    Inv { u with mem := m, fresh := fresh, stale := stale, draws := draws, sched := sched, hostPc := pc
                 temps := temps, lists := lists } := by
  obtain ⟨_, hflags, hfly, hreset⟩ := h
  exact ⟨hm, hflags, inFlightOk_congr hfly rfl rfl rfl rfl rfl rfl rfl rfl, hreset⟩

/-- A failed START keeps the flags legal (R251). -/
theorem flagsOk_recordError {u : State} (e : ErrCode) (hidle : u.busy = false) :
    FlagsOk (recordError e u) := by
  refine ⟨fun hb => ?_, ?_, ?_, ?_, e.code_le, Nat.zero_le _⟩
  · rw [recordError_busy, hidle] at hb
    cases hb
  · simp [e.code_ne_zero]
  · simp
  · simp

/-- An accepted START keeps the flags legal (R252). -/
theorem flagsOk_recordAccept (w : Bool) (u : State) : FlagsOk (recordAccept w u) := by
  refine ⟨fun _ => ⟨rfl, rfl⟩, by simp, ?_, by simp, Nat.zero_le _, ?_⟩
  · cases w <;> simp
  · cases w <;> simp

/-- A STATUS write keeps the flags legal: a code is cleared with its flag (R29, R30). -/
theorem flagsOk_clearStatus {u : State} (v : Word) (h : FlagsOk u) : FlagsOk (clearStatus v u) := by
  obtain ⟨hbusy, herr, hwarn, hdone, hec, hwc⟩ := h
  refine ⟨fun hb => ?_, ?_, ?_, fun hd => ?_, ?_, ?_⟩
  · obtain ⟨h1, h2⟩ := hbusy hb
    exact ⟨by rw [clearStatus_done, h1]; rfl, by rw [clearStatus_err, h2]; rfl⟩
  · rw [clearStatus_err, clearStatus_errCode]
    cases v.getLsbD 2 <;> simp [herr]
  · rw [clearStatus_warn, clearStatus_warnCode]
    cases v.getLsbD 3 <;> simp [hwarn]
  · rw [clearStatus_done, Bool.and_eq_true] at hd
    rw [clearStatus_err, hdone hd.1]
    rfl
  · rw [clearStatus_errCode]
    split
    · exact Nat.zero_le _
    · exact hec
  · rw [clearStatus_warnCode]
    split
    · exact Nat.zero_le _
    · exact hwc

/-- A completion keeps the flags legal: ERR is 0 while BUSY = 1 (R38, R215). -/
theorem flagsOk_complete {u : State} (r : Region) (m : List Host.Cell) (hbusy : u.busy = true)
    (h : FlagsOk u) : FlagsOk (complete r m u) := by
  obtain ⟨hrunning, herr, hwarn, _, hec, hwc⟩ := h
  obtain ⟨_, hnoErr⟩ := hrunning hbusy
  exact ⟨by simp, herr, hwarn, fun _ => hnoErr, hec, hwc⟩

/-- The frames of a running command keep memory canonical: its destination fits (R248). -/
theorem framesDone_wf_of_running {i : Instr} {u : State} (hm : Memory.wf u.mem) (hrun : Running i u) :
    Memory.wf (framesDone i u (frameCount i u)) := by
  obtain ⟨_, _, _, ⟨_, hfits⟩, _⟩ := (validateCommand_none_iff i u).1 hrun.valid
  exact framesDone_wf hm hfits

/-- Every effect of a turn keeps the invariant. -/
theorem Inv.of_turnEffect {u t : State} {τ : Turn} (h : Inv u) (heff : TurnEffect u τ t) : Inv t := by
  have hInv := h
  obtain ⟨hm, hflags, hfly, hreset⟩ := h
  cases heff with
  | quiet _ pc temps lists draws fresh => exact hInv.of_host_fields hm _ _ _ _ _ _ _
  | store st a bs _ _ hroom => exact hInv.of_host_fields (storeBytes_wf hm hroom) _ _ _ _ _ _ _
  | setIrqEn hheld en =>
    exact ⟨hm, hflags, inFlightOk_congr hfly rfl rfl rfl rfl rfl rfl rfl rfl, resetOk_of_released hheld⟩
  | fail hheld hidle en e =>
    exact ⟨hm, flagsOk_recordError e hidle, inFlightOk_of_idle hidle, resetOk_of_released hheld⟩
  | accept hheld _ v i _ _ hd _ hrun =>
    exact ⟨hm, flagsOk_recordAccept _ _, inFlightOk_of_running hd hrun, resetOk_of_released hheld⟩
  | clear hheld v =>
    exact ⟨hm, flagsOk_clearStatus v hflags, inFlightOk_congr hfly rfl rfl rfl rfl rfl rfl rfl rfl,
      resetOk_of_released hheld⟩
  | load hheld hidle =>
    exact ⟨hm, hflags, inFlightOk_of_idle hidle, resetOk_of_released hheld⟩
  | complete i _ hrun =>
    refine ⟨framesDone_wf_of_running hm hrun, flagsOk_complete _ _ hrun.busy hflags,
      inFlightOk_of_idle rfl, fun hheld => ?_⟩
    cases (hreset hheld).busy.symm.trans hrun.busy
  | assertReset =>
    have hregs := registersAtReset_assertReset u
    have hidle : (assertReset u).busy = false := hregs.busy
    refine ⟨?_, flagsOk_of_registersAtReset hregs, inFlightOk_of_idle hidle, fun _ => hregs⟩
    rcases assertReset_mem u with ⟨_, e⟩ | ⟨i, _, e⟩ <;> rw [e]
    · exact hm
    · exact scramble_wf hm (Nat.min_le_right _ _)
  | release =>
    exact ⟨hm, hflags, inFlightOk_congr hfly rfl rfl rfl rfl rfl rfl rfl rfl, resetOk_of_released rfl⟩

/-- Settles O46: taking the turn off the list keeps the invariant, and so does each effect of a turn. -/
theorem everyStepKeepsTheInvariant : Obligations.EveryStepKeepsTheInvariant := by
  intro s t h hstep
  obtain ⟨τ, _, heff⟩ := turnEffect_of_step hstep
  have hpop : Inv (popTurn s) :=
    h.of_host_fields h.1 s.fresh s.stale s.draws s.sched.tail s.hostPc s.temps s.lists
  exact hpop.of_turnEffect heff

/-- Settles O45: memory lists nothing, the registers are at their reset values and no reset is asserted. -/
theorem invariantHoldsAtReset : Obligations.InvariantHoldsAtReset := by
  have hregs : RegistersAtReset State.reset := by
    rw [RegistersAtReset]
    decide
  have hmem : Memory.wf State.reset.mem := ⟨List.Pairwise.nil, fun _ hc => by cases hc⟩
  exact ⟨⟨hmem, flagsOk_of_registersAtReset hregs, inFlightOk_of_idle rfl, resetOk_of_released rfl⟩,
    rfl, rfl⟩

/-! ## What rises, what stays -/

/-- Settles O47: of all effects only the completion leads from DONE = 0 to DONE = 1. -/
theorem doneRisesOnlyAtCompletion : Obligations.DoneRisesOnlyAtCompletion := by
  intro s t hstep hs ht
  obtain ⟨τ, hτ, heff⟩ := turnEffect_of_step hstep
  have hkept (hdone : t.done = s.done) : False := by
    rw [hdone, hs] at ht
    cases ht
  cases heff with
  | quiet | store | setIrqEn | load | release => exact (hkept rfl).elim
  | fail | accept => cases ht
  | clear _ v =>
    rw [clearStatus_done, Bool.and_eq_true] at ht
    exact absurd ht.1 (by simp [hs])
  | complete i _ hrun =>
    exact ⟨by rw [engineMoves, hτ]; rfl, hrun.busy, rfl⟩
  | assertReset =>
    cases (registersAtReset_assertReset (popTurn s)).done.symm.trans ht

/-- Settles O48: of all effects only the accepted START leads from BUSY = 0 to BUSY = 1. -/
theorem busyRisesOnlyAtAnAcceptedStart : Obligations.BusyRisesOnlyAtAnAcceptedStart := by
  intro s t hstep hs ht
  obtain ⟨τ, hτ, heff⟩ := turnEffect_of_step hstep
  have hkept (hbusy : t.busy = s.busy) : False := by
    rw [hbusy, hs] at ht
    cases ht
  cases heff with
  | quiet | store | setIrqEn | load | release | fail | clear => exact (hkept rfl).elim
  | complete => cases ht
  | accept hheld _ v i hst hv hd hvalid hrun =>
    have hnone : validate (popTurn s) = none := (validate_of_decode_ok hd).trans hvalid
    refine ⟨hnone, hheld, ⟨v, ?_, hv⟩, i, hd, hrun⟩
    rw [hostMoves, if_pos hτ]
    exact hst
  | assertReset =>
    cases (registersAtReset_assertReset (popTurn s)).busy.symm.trans ht

/-- While BUSY = 1 the default turn is the engine's (log 2). -/
theorem defaultTurn_of_busy {s : State} (h : s.busy = true) : defaultTurn s = .engine := by
  rw [defaultTurn, if_pos h]

/-- Settles O49: the effects that touch a command register need BUSY = 0 or are the reset. -/
theorem commandInFlightKeepsItsRegisters : Obligations.CommandInFlightKeepsItsRegisters := by
  intro s t hstep hbusy hturn
  obtain ⟨τ, hτ, heff⟩ := turnEffect_of_step hstep
  rw [defaultTurn_of_busy hbusy] at hτ
  cases heff with
  | quiet | store | setIrqEn | release | clear | complete | fail | accept =>
    exact ⟨rfl, rfl, rfl, rfl, rfl, rfl⟩
  | load _ hidle => cases hidle.symm.trans hbusy
  | assertReset => exact absurd hτ hturn

/-- A byte outside a region is outside the part of it that lies in the address space. -/
theorem has_clip_eq_false {r : Region} {a : Nat} (h : r.has a = false) : (clip r).has a = false := by
  rw [Region.has_false_iff] at h ⊢
  simp only [clip]
  omega

/-- Settles O50: memory changes in a host store, in its bytes, and in the completion and the aborting
reset, in the destination. -/
theorem memoryChangesOnlyWhereAllowed : Obligations.MemoryChangesOnlyWhereAllowed := by
  intro s t a hstep hne
  obtain ⟨τ, hτ, heff⟩ := turnEffect_of_step hstep
  have hdst (i : Instr) : dstRange i (popTurn s) = dstRange i s := dstRange_congr rfl rfl rfl rfl
  cases heff with
  | quiet | setIrqEn | load | release | fail | accept | clear => exact absurd rfl hne
  | store st b bs hst hbytes =>
    refine .inr ⟨st, b, bs, ?_, hbytes, ?_⟩
    · rw [hostMoves, if_pos hτ]
      exact hst
    · by_contra hout
      exact hne (readByte_storeBytes_outside (by omega))
  | complete i hfly hrun =>
    refine .inl ⟨i, hfly, ?_, .inl hτ⟩
    by_contra hout
    rw [Bool.not_eq_true, ← hdst] at hout
    exact hne (framesDone_unchangedOutside i (popTurn s) a hout)
  | assertReset =>
    rcases assertReset_mem (popTurn s) with ⟨_, e⟩ | ⟨i, hfly, e⟩ <;> rw [e] at hne
    · exact absurd rfl hne
    · refine .inl ⟨i, hfly, ?_, .inr hτ⟩
      by_contra hout
      rw [Bool.not_eq_true, ← hdst] at hout
      exact hne (readByte_scramble_outside (has_clip_eq_false hout))

end Sys2Proof.Machine
end

section
/-! SUPPORT. The turns of host, engine and reset input as equations, and where they stop: a step is the move
at the head of the list, the engine stops on no command in flight, and only the host's accesses fault. -/

namespace Sys2Proof.Machine

/-! ## Whose turn it is (log 2) -/

theorem step_of_cons {s : State} {τ : Turn} {rest : List Turn} (h : s.sched = τ :: rest) :
    step s = turnOf τ { s with sched := rest } := by
  rw [step_eq, h]
  rfl

theorem step_of_nil {s : State} (h : s.sched = []) : step s = turnOf (defaultTurn s) s := by
  rw [step, nextMove, h]

theorem defaultTurn_of_idle {s : State} (h : s.busy = false) : defaultTurn s = .host := by
  rw [defaultTurn, h]
  rfl

/-- The engine is due at the head of the list, or by default while BUSY = 1 (R296). -/
theorem headD_eq_engine {s : State} (hbusy : s.busy = true)
    (h : s.sched = [] ∨ s.sched.head? = some .engine) : s.sched.headD (defaultTurn s) = .engine := by
  rw [List.headD_eq_head?_getD]
  rcases h with h | h
  · rw [h]
    exact defaultTurn_of_busy hbusy
  · rw [h]
    rfl

theorem hostTurn_of_stmt {u : State} {st : HostStmt} (h : u.prog[u.hostPc]? = some st) :
    hostTurn u = hostExec st u := by
  rw [hostTurn, h]

theorem engineTurn_of_decode {u : State} {i : Instr} (hbusy : u.busy = true) (hd : decode u.cmd = .ok i) :
    engineTurn u = exec i u := by
  rw [engineTurn, if_pos hbusy, hd]

/-- A host write of CTRL with bit 0 = 1 is the START with IRQ_EN already set (R25, R26). -/
theorem hostExec_start (u : State) {v : Word} (hheld : u.resetHeld = false) (hv : v.getLsbD 0 = true) :
    hostExec (.wr .word 0x04 v) u = start { u with hostPc := u.hostPc + 1, irqEn := v.getLsbD 1 } := by
  have hctrl : Reg.ofOffset 0x04 = some .ctrl := by decide
  rw [hostExec_wr u hctrl, if_neg (by rw [hheld]; decide), writeReg, if_pos hv]
  rfl

/-- Settles O43: the host's turn is its statement, a CTRL write with START is `start`, and `start` of an idle
machine goes by what CMD decodes to. -/
theorem startStepRunsTheDecodedCommand : Obligations.StartStepRunsTheDecodedCommand := by
  have hhead {s : State} {st : HostStmt} {rest : List Turn} (hst : s.prog[s.hostPc]? = some st)
      (h : s.sched = .host :: rest) : step s = hostExec st { s with sched := rest } :=
    (step_of_cons h).trans (hostTurn_of_stmt hst)
  have hdefault {s : State} {st : HostStmt} (hst : s.prog[s.hostPc]? = some st) (hidle : s.busy = false)
      (h : s.sched = []) : step s = hostExec st s := by
    rw [step_of_nil h, defaultTurn_of_idle hidle]
    exact hostTurn_of_stmt hst
  have hstart {u : State} {i : Instr} (hidle : u.busy = false) (hd : decode u.cmd = .ok i) :
      start u = exec i u := by
    rw [start_of_decode_ok hidle hd, exec_idle i hidle]
  refine ⟨fun s st hst => ⟨fun rest h => hhead hst h, hdefault hst⟩, fun s v hheld hst hv =>
    ⟨fun rest h => ?_, fun hidle h => ?_, fun i hidle hd => ⟨fun rest h => ?_, fun h => ?_⟩,
      fun e rest hidle hd h => ?_⟩⟩
  · exact (hhead hst h).trans (hostExec_start { s with sched := rest } hheld hv)
  · exact (hdefault hst hidle h).trans (hostExec_start s hheld hv)
  · exact (hhead hst h).trans
      ((hostExec_start { s with sched := rest } hheld hv).trans (hstart hidle hd))
  · exact (hdefault hst hidle h).trans ((hostExec_start s hheld hv).trans (hstart hidle hd))
  · exact (hhead hst h).trans
      ((hostExec_start { s with sched := rest } hheld hv).trans (start_of_decode_error hidle hd))

/-- Settles O44: the engine's turn while BUSY = 1 is `exec` of the decoded command. -/
theorem engineStepRunsTheCommandInFlight : Obligations.EngineStepRunsTheCommandInFlight := by
  intro s i hbusy hd
  refine ⟨fun rest h => ?_, fun h => ?_⟩
  · rw [step_of_cons h]
    exact engineTurn_of_decode hbusy hd
  · rw [step_of_nil h, defaultTurn_of_busy hbusy]
    exact engineTurn_of_decode hbusy hd

/-! ## The engine always has a next state -/

/-- A running command that CMD holds completes at the engine's turn (R296). -/
theorem engineTurn_of_running {u : State} {i : Instr} (hd : decode u.cmd = .ok i) (hrun : Running i u) :
    engineTurn u = .next (complete (dstRange i u) (framesDone i u (frameCount i u)) u) := by
  rw [engineTurn_of_decode hrun.busy hd, exec_running hrun]

theorem engineTurn_of_inFlightOk {u : State} (h : InFlightOk u) : ∃ t, engineTurn u = .next t := by
  cases hbusy : u.busy with
  | false => exact ⟨u, by rw [engineTurn, hbusy]; rfl⟩
  | true =>
    obtain ⟨i, hd, hrun⟩ := h hbusy
    exact ⟨_, engineTurn_of_running hd hrun⟩

/-- Settles O51: the engine is due, and its turn is the completion. -/
theorem engineTurnCompletesTheCommand : Obligations.EngineTurnCompletesTheCommand := by
  intro s i hd hrun hdue
  have hrun' : Running i (popTurn s) :=
    (running_congr (s := s) (t := popTurn s) rfl rfl rfl rfl rfl rfl rfl).2 hrun
  rw [step_eq, headD_eq_engine hrun.busy hdue]
  exact ⟨_, engineTurn_of_running hd hrun', rfl, rfl⟩

/-! ## Where a step stops -/

theorem hostRead_refused {a n l : Nat} {pack : List Byte → List Half} {u : State} {r : Refusal}
    (h : hostRead a n l pack u = .refused r) : r = .unbackedMemory := by
  rcases hostAccessStop_cases u a n with ⟨_, e⟩ | ⟨_, _, e⟩ | ⟨_, _, e⟩
  all_goals rw [hostRead, e] at h
  · cases h
  · cases h
    rfl
  · cases h

theorem hostWrite_refused {a : Nat} {bs : List Byte} {u : State} {r : Refusal}
    (h : hostWrite a bs u = .refused r) : r = .unbackedMemory ∨ r = .hostWriteWhileBusy := by
  rcases hostAccessStop_cases u a bs.length with ⟨_, e⟩ | ⟨_, _, e⟩ | ⟨_, _, e⟩ <;>
    simp only [hostWrite, e] at h
  · cases h
  · cases h
    exact .inl rfl
  · split at h <;> cases h
    exact .inr rfl

theorem writeReg_refused {reg : Reg} {v : Word} {u : State} {r : Refusal}
    (h : writeReg reg v u = .refused r) : r = .unbackedMemory := by
  rcases writeReg_cases reg v u with
    ⟨_, _, e⟩ | ⟨_, _, e⟩ | ⟨_, e⟩ | ⟨_, _, _, _, _, _, _, e⟩ | e
  all_goals rw [e] at h
  · exact (start_stop_cases _).2 r h
  all_goals cases h

/-- No host statement is refused for an invalid command in flight. -/
theorem hostExec_not_invalidInFlight (st : HostStmt) (u : State) :
    hostExec st u ≠ .refused .invalidInFlight := by
  intro h
  cases st with
  | wr size off v =>
    simp only [hostExec, hostWr] at h
    split at h
    · split at h
      · cases h
      · cases writeReg_refused h
    · cases h
  | rd size off k =>
    simp only [hostExec, hostRd] at h
    split at h <;> cases h
  | mw8 a bs | mw16 a bs => rcases hostWrite_refused h with e | e <;> cases e
  | mr8 a n l | mr16 a n l => cases hostRead_refused h
  | bnz | bz | halt => cases h

/-- Settles O52: neither the engine nor the reset input faults, and of the host's statements only an access
past the address space does. -/
theorem onlyHostAccessesPastMemoryFault : Obligations.OnlyHostAccessesPastMemoryFault := by
  intro s e h
  rw [step_eq] at h
  cases hτ : s.sched.headD (defaultTurn s) with
  | host =>
    rw [hτ, turnOf, hostTurn] at h
    split at h
    case h_1 st hst =>
      obtain ⟨r, hr, hhi⟩ := hostExec_fault h
      exact ⟨st, r, by rw [hostMoves, if_pos hτ]; exact hst, hr, hhi⟩
    case h_2 => cases h
  | engine =>
    rw [hτ, turnOf, engineTurn] at h
    split at h
    · split at h
      · exact absurd h ((exec_stop_cases _ _).1 e)
      · cases h
    · cases h
  | reset | release =>
    rw [hτ] at h
    cases h

/-- Settles O53: by the invariant's clause on the command in flight the engine's turn has a next state, and the
other turns are never refused this way. -/
theorem invariantExcludesAnInvalidCommandInFlight :
    Obligations.InvariantExcludesAnInvalidCommandInFlight := by
  intro s h
  obtain ⟨_, _, hfly, _⟩ := h
  have hfly' : InFlightOk (popTurn s) := inFlightOk_congr hfly rfl rfl rfl rfl rfl rfl rfl rfl
  obtain ⟨t, ht⟩ := engineTurn_of_inFlightOk hfly'
  rw [step_eq]
  refine ⟨fun hstop => ?_, fun hengine => ?_⟩
  · cases hτ : s.sched.headD (defaultTurn s) with
    | host =>
      rw [hτ, turnOf, hostTurn] at hstop
      split at hstop
      · exact hostExec_not_invalidInFlight _ _ hstop
      · cases hstop
    | engine =>
      rw [hτ] at hstop
      cases ht.symm.trans hstop
    | reset | release =>
      rw [hτ] at hstop
      cases hstop
  · rw [engineMoves, beq_iff_eq] at hengine
    rw [hengine]
    exact ⟨t, ht⟩

/-! ## Reset (R280, R281) -/

/-- Registers at their reset values read as after reset, whatever the other fields hold. -/
theorem readReg_of_registersAtReset {s : State} (h : RegistersAtReset s) (r : Reg) :
    readReg r s = readReg r State.reset := by
  obtain ⟨hen, hbusy, hdone, herr, hwarn, hec, hwc, hcmd, hh, hw, hc, hsrc, hdst⟩ := h
  cases r with
  | version | reserved => rfl
  | ctrl => rw [readReg, ctrlWord, hen]; rfl
  | status => rw [readReg, statusWord, hbusy, hdone, herr, hwarn, hec, hwc]; rfl
  | cmd => exact hcmd
  | height => rw [readReg, hh]; rfl
  | width => rw [readReg, hw]; rfl
  | count => rw [readReg, hc]; rfl
  | srcBase => exact hsrc
  | dstBase => exact hdst

/-- While reset is held only its release changes the registers (log 14). -/
theorem TurnEffect.keeps_held_reset {u t : State} {τ : Turn} (heff : TurnEffect u τ t)
    (hτ : τ ≠ .release) (hheld : u.resetHeld = true) (hregs : RegistersAtReset u) :
    t.resetHeld = true ∧ RegistersAtReset t := by
  have hcontra {p : Prop} (h : u.resetHeld = false) : p := absurd (h.symm.trans hheld) (by decide)
  cases heff with
  | quiet | store => exact ⟨hheld, hregs⟩
  | setIrqEn h | fail h | accept h | clear h | load h => exact hcontra h
  | complete i _ hrun =>
    cases hregs.busy.symm.trans hrun.busy
  | assertReset => exact ⟨resetHeld_assertReset u, registersAtReset_assertReset u⟩
  | release => exact absurd rfl hτ

/-- Settles O59: what asserting reset leaves, what registers at reset read, that every effect but the release
keeps them, and the turns of the reset input. -/
theorem resetPutsEveryRegisterAtItsValue : Obligations.ResetPutsEveryRegisterAtItsValue := by
  refine ⟨fun s => ?_, fun s hregs => ?_, fun s t hheld hregs hturn hstep => ?_, fun s => rfl,
    fun s rest => ⟨step_of_cons, step_of_cons⟩⟩
  · have hregs := registersAtReset_assertReset s
    refine ⟨assertReset s, rfl, resetHeld_assertReset s, hregs, fun hfly => ?_, ?_⟩
    · rcases assertReset_mem s with ⟨_, hmem⟩ | ⟨i, hfly', _⟩
      · exact hmem
      · cases hfly.symm.trans hfly'
    · obtain ⟨hen, hbusy, hdone, herr, hwarn, hec, hwc, hcmd, hh, hw, hc, hsrc, hdst⟩ := hregs
      rw [hen, hbusy, hdone, herr, hwarn, hec, hwc, hcmd, hh, hw, hc, hsrc, hdst]
      rfl
  · have hread := readReg_of_registersAtReset hregs
    obtain ⟨hen, hbusy, _⟩ := hregs
    refine ⟨rfl, hread .ctrl, hread .status, hread .cmd, hread .height, hread .width, hread .count,
      hread .srcBase, hread .dstBase, irq_of_disabled hen, ?_⟩
    rw [inFlight, hbusy]
    rfl
  · obtain ⟨τ, hτ, heff⟩ := turnEffect_of_step hstep
    exact heff.keeps_held_reset (hτ ▸ hturn) hheld hregs

/-- A region inside the address space needs no clipping. -/
theorem clip_of_le {r : Region} (h : r.hi ≤ Config.addrSpace) : clip r = r := by
  rw [clip, Nat.min_eq_left h]

/-- Settles O60: the destination of a command whose checks pass is not clipped, so the reset scrambles exactly
it, and the source has no byte of it. -/
theorem abortingResetFreesOnlyTheDestination : Obligations.AbortingResetFreesOnlyTheDestination := by
  intro i s hfly hvalid
  obtain ⟨_, _, _, ⟨_, hfits⟩, _⟩ := (validateCommand_none_iff i s).1 hvalid
  have hregs := registersAtReset_assertReset s
  have hmem : (assertReset s).mem = scramble s.draws (dstRange i s) s.mem := by
    rcases assertReset_mem s with ⟨hnone, _⟩ | ⟨j, hfly', e⟩
    · cases hfly.symm.trans hnone
    · cases hfly.symm.trans hfly'
      rw [e, clip_of_le hfits]
  have hkept : UnchangedOutside (dstRange i s) s.mem (assertReset s).mem := fun a ha => by
    rw [hmem, readByte_scramble_outside ha]
  have hread := readReg_of_registersAtReset hregs
  obtain ⟨_, hbusy, hdone, _⟩ := hregs
  refine ⟨assertReset s, rfl, hbusy, hdone, hread, hkept,
    fun a ha => hkept a (source_outside_destination hvalid ha), fun k hk => ?_⟩
  rw [hmem, readByte_scramble hk]

end Sys2Proof.Machine
end

section
/-! SUPPORT. The register window word by word (10_state.md): the bits of a STATUS read, what each write
stores, and which accesses reach the window. -/

namespace Sys2Proof.Machine

/-! ## Reads (R26, R30) -/

/-- A bit of a word, as the parity of the word shifted down. -/
theorem getLsbD_of_toNat {w : Word} {k : Nat} {b : Bool} (h : w.toNat / 2 ^ k % 2 = b.toNat) :
    w.getLsbD k = b := by
  rw [BitVec.getLsbD, Nat.testBit_eq_decide_div_mod_eq, h]
  cases b <;> rfl

/-- A field of a word, as the word shifted down and reduced. -/
theorem extractLsb'_of_toNat {w : Word} {lo n : Nat} {x : BitVec n}
    (h : w.toNat / 2 ^ lo % 2 ^ n = x.toNat) : w.extractLsb' lo n = x := by
  apply BitVec.eq_of_toNat_eq
  rw [BitVec.extractLsb'_toNat, Nat.shiftRight_eq_div_pow, h]

/-- STATUS as a number: the flags and codes fit, so nothing is reduced. -/
theorem statusWord_toNat (s : State) :
    (statusWord s).toNat = s.busy.toNat + s.done.toNat * 2 ^ 1 + s.err.toNat * 2 ^ 2 + s.warn.toNat * 2 ^ 3
      + s.errCode.toNat * 2 ^ 4 + s.warnCode.toNat * 2 ^ 8 := by
  have hbusy := s.busy.toNat_le
  have hdone := s.done.toNat_le
  have herr := s.err.toNat_le
  have hwarn := s.warn.toNat_le
  have herrCode := s.errCode.isLt
  have hwarnCode := s.warnCode.isLt
  rw [statusWord, BitVec.toNat_ofNat]
  omega

theorem ctrlWord_toNat (s : State) : (ctrlWord s).toNat = s.irqEn.toNat * 2 ^ 1 := by
  have hen := s.irqEn.toNat_le
  rw [ctrlWord, BitVec.toNat_ofNat]
  omega

/-- Settles O8: STATUS and CTRL are sums of their fields at their positions, and each field is below the next
position. -/
theorem statusReadsItsFields : Obligations.StatusReadsItsFields := by
  intro s
  have hbusy := s.busy.toNat_le
  have hdone := s.done.toNat_le
  have herr := s.err.toNat_le
  have hwarn := s.warn.toNat_le
  have herrCode := s.errCode.isLt
  have hwarnCode := s.warnCode.isLt
  have hen := s.irqEn.toNat_le
  refine ⟨getLsbD_of_toNat ?_, getLsbD_of_toNat ?_, getLsbD_of_toNat ?_, getLsbD_of_toNat ?_,
    extractLsb'_of_toNat ?_, extractLsb'_of_toNat ?_, extractLsb'_of_toNat ?_,
    getLsbD_of_toNat ?_, getLsbD_of_toNat ?_, extractLsb'_of_toNat ?_⟩
  all_goals simp only [readReg, statusWord_toNat, ctrlWord_toNat, BitVec.toNat_ofNat, Bool.toNat_false]
  all_goals omega

/-! ## Writes (R28-R34) -/

/-- A 16-bit register reads the low half of the word written (R32, R33). -/
theorem setWidth_setWidth_eq_and (v : Word) : (v.setWidth 16).setWidth 32 = v &&& 0xFFFF#32 := by
  apply BitVec.eq_of_toNat_eq
  rw [BitVec.toNat_and, BitVec.toNat_setWidth_of_le (by decide), BitVec.toNat_setWidth]
  exact (Nat.and_two_pow_sub_one_eq_mod v.toNat 16).symm

/-- Settles O7: while BUSY = 0 the write of a command register stores its word or its low half. -/
theorem commandRegistersReadBackTheirWrites : Obligations.CommandRegistersReadBackTheirWrites := by
  intro v s hidle
  have hstore {u : State} : (Host.Outcome.next (if s.busy then s else u) : Host.Outcome State Fault Refusal)
      = .next u := by rw [hidle]; rfl
  exact ⟨⟨hstore, rfl⟩, ⟨hstore, rfl⟩, ⟨hstore, rfl⟩, ⟨_, hstore, setWidth_setWidth_eq_and v⟩,
    ⟨_, hstore, setWidth_setWidth_eq_and v⟩, ⟨_, hstore, setWidth_setWidth_eq_and v⟩⟩

/-- Settles O9: keeping a flag unless its bit is written is clearing it where the bit is written. -/
theorem statusWriteClearsTheNamedFlags : Obligations.StatusWriteClearsTheNamedFlags := by
  intro v s
  have hflag (flag bit : Bool) : (flag && !bit) = if bit = true then false else flag := by
    cases bit <;> simp
  rw [writeReg, clearStatus, hflag, hflag, hflag]

/-! ## Which accesses reach the window (R23, R36) -/

/-- A misaligned offset, or one beyond 0xFC, names no register (R36). -/
theorem Reg.ofOffset_eq_none {off : Nat} (h : off % 4 ≠ 0 ∨ 0xFC < off) : Reg.ofOffset off = none := by
  rw [Reg.ofOffset, if_pos h]

theorem Reg.ofOffset_eq_some {off : Nat} (hal : off % 4 = 0) (hhi : off ≤ 0xFC) :
    ∃ r, Reg.ofOffset off = some r :=
  ⟨_, if_neg (by omega)⟩

/-- What the host's read of a register settles is a matter of `fresh` only. -/
theorem observe_eq (r : Reg) (s : State) :
    observe r s = { s with fresh := if r = .status ∧ s.done = true then [] else s.fresh } := by
  rw [observe]
  split_ifs <;> rfl

/-- A 32-bit aligned read assigns the register's value to the temporary (R104). -/
theorem hostExec_rd {off : Nat} {r : Reg} (t : Nat) (s : State) (hr : Reg.ofOffset off = some r) :
    hostExec (.rd .word off t) s
      = .next (observe r { advance s with temps := insertKey t (readReg r s) s.temps }) := by
  simp only [hostExec, hostRd, hr]

/-- An access that is not 32-bit, or to no register, is refused (R36, U4). -/
theorem hostExec_window_refused {size : BusSize} {off : Nat} (v : Word) (t : Nat) (s : State)
    (h : size ≠ .word ∨ Reg.ofOffset off = none) :
    hostExec (.wr size off v) s = .refused .registerAccess
      ∧ hostExec (.rd size off t) s = .refused .registerAccess := by
  cases size with
  | byte | half => exact ⟨rfl, rfl⟩
  | word =>
    have hnone := h.resolve_left (fun hne => hne rfl)
    exact ⟨by simp only [hostExec, hostWr, hnone], by simp only [hostExec, hostRd, hnone]⟩

/-- Settles O11: the table by evaluation, the refusals by the offsets that name no register, and the two
directions of an access to a register. -/
theorem onlyAlignedWordAccessesReachTheWindow : Obligations.OnlyAlignedWordAccessesReachTheWindow := by
  refine ⟨⟨by decide, by decide, by decide, by decide, by decide, by decide, by decide, by decide,
    by decide, fun off hlo hhi hal => Reg.ofOffset_reserved hlo hhi hal⟩,
    fun size off v t s h => hostExec_window_refused v t s (h.imp_right Reg.ofOffset_eq_none),
    fun off v r s hr => ⟨fun hheld => ?_, fun hheld => ?_⟩, fun off t s hal hhi => ?_⟩
  · rw [hostExec_wr s hr, if_neg (by rw [hheld]; decide)]
    rfl
  · rw [hostExec_wr s hr, if_pos hheld]
    rfl
  · obtain ⟨r, hr⟩ := Reg.ofOffset_eq_some hal hhi
    refine ⟨r, if r = .status ∧ s.done = true then [] else s.fresh, hr, ?_⟩
    rw [hostExec_rd t s hr, observe_eq]
    rfl

/-! ## Branches (R104) -/

/-- Settles O58: the condition of each branch is whether the assigned value and the mask share a 1 bit. -/
theorem hostBranchesTestTheMaskedTemporary : Obligations.HostBranchesTestTheMaskedTemporary := by
  intro t v m target s ht
  have hvalue : tempValue s t = v := by rw [tempValue, ht]
  refine ⟨fun hne => ?_, fun heq => ?_⟩
  · rw [hostExec, hostExec, hvalue, bne_iff_ne.2 hne, beq_eq_false_iff_ne.2 hne]
    exact ⟨rfl, rfl⟩
  · rw [hostExec, hostExec, hvalue, heq]
    exact ⟨rfl, rfl⟩

end Sys2Proof.Machine
end

section
/-! SUPPORT. The host's accesses to sample memory (20_memory.md R61, R75, 70_reset_and_hazards.md R291): it
reads back what it stored, a free value where it may not rely on memory, and stores to no running range. -/

namespace Sys2Proof.Machine

/-! ## 16-bit values as bytes (R61) -/

/-- A byte of a stored string, by its index. -/
theorem readByte_storeBytes_of_getElem? {m : List Host.Cell} {a k : Nat} {bs : List Byte} {b : Byte}
    (h : bs[k]? = some b) : readByte (storeBytes m a bs) (a + k) = b := by
  obtain ⟨hk, hb⟩ := List.getElem?_eq_some_iff.1 h
  rw [readByte_storeBytes hk, hb]

/-- Settles O38: both bytes of a two-byte store, and the value read back, which its range leaves unreduced. -/
theorem sixteenBitValuesAreLittleEndian : Obligations.SixteenBitValuesAreLittleEndian := by
  intro m a v hv
  have hlow : readByte (memWrite m a 2 v) a = BitVec.ofNat 8 (v % 256) := by
    rw [memWrite, readByte_memWrite_outside _ (by omega), readByte_writeByte_same]
  have hhigh : readByte (memWrite m a 2 v) (a + 1) = BitVec.ofNat 8 (v / 256 % 256) := by
    rw [memWrite, memWrite, readByte_memWrite_outside _ (by omega), readByte_writeByte_same]
  refine ⟨?_, ?_, ?_, rfl⟩
  · rw [hlow, BitVec.toNat_ofNat]
    omega
  · rw [hhigh, BitVec.toNat_ofNat]
    omega
  · rw [memRead_memWrite_same]
    exact Nat.mod_eq_of_lt hv

/-- A half is its high byte in front of its low byte. -/
theorem half_of_bytes (v : Half) : (v >>> (8 : Nat)).setWidth 8 ++ v.setWidth 8 = v := by
  apply BitVec.eq_of_getLsbD_eq
  intro k hk
  rw [BitVec.getLsbD_append]
  by_cases h8 : k < 8
  · simp [h8]
  · have hadd : 8 + (k - 8) = k := by omega
    simp [h8, hadd]
    omega

theorem unpackHalves_cons (v : Half) (vs : List Half) :
    unpackHalves (v :: vs) = v.setWidth 8 :: (v >>> (8 : Nat)).setWidth 8 :: unpackHalves vs := rfl

/-- MR16 packs what MW16 unpacked (R104). -/
theorem packHalves_unpackHalves (vs : List Half) : packHalves (unpackHalves vs) = vs := by
  induction vs with
  | nil => rfl
  | cons v vs ih => rw [unpackHalves_cons, packHalves, ih, half_of_bytes]

/-- Value k of an MW16 lies at bytes 2k and 2k + 1. -/
theorem unpackHalves_getElem? {vs : List Half} {k : Nat} {v : Half} (h : vs[k]? = some v) :
    (unpackHalves vs)[2 * k]? = some (v.setWidth 8)
      ∧ (unpackHalves vs)[2 * k + 1]? = some ((v >>> (8 : Nat)).setWidth 8) := by
  induction vs generalizing k with
  | nil => cases h
  | cons w ws ih =>
    rw [unpackHalves_cons]
    cases k with
    | zero =>
      cases h
      exact ⟨rfl, rfl⟩
    | succ k => exact ih h

/-! ## What a read returns (R75) -/

@[simp] theorem inFlight_advance (s : State) : inFlight (advance s) = inFlight s := rfl

@[simp] theorem srcRange_advance (i : Instr) (s : State) : srcRange i (advance s) = srcRange i s :=
  srcRange_congr rfl rfl rfl rfl

@[simp] theorem dstRange_advance (i : Instr) (s : State) : dstRange i (advance s) = dstRange i s :=
  dstRange_congr rfl rfl rfl rfl

theorem inFlight_of_idle {s : State} (h : s.busy = false) : inFlight s = none := by
  rw [inFlight, h]
  rfl

/-- While no command runs the host may rely on every byte outside the destinations it has not seen done. -/
theorem unsettled_of_idle {s : State} (h : s.busy = false) (a : Nat) :
    unsettled s a = (anyHas s.fresh a || anyHas s.stale a) := by
  rw [unsettled, inFlight_of_idle h]
  rfl

theorem unsettled_of_running {i : Instr} {s : State} (hfly : inFlight s = some i) {a : Nat}
    (ha : (dstRange i s).has a = true) : unsettled s a = true := by
  rw [unsettled, hfly]
  simp only [ha, Bool.true_or]

/-- A store settles its own bytes: the host reads there what it stored (R75 a). -/
theorem observeBytes_stored {u : State} (hidle : u.busy = false) (a : Nat) (bs : List Byte) :
    observeBytes (advance (stored a bs u)) a bs.length = bs := by
  have hidle' : (advance (stored a bs u)).busy = false := hidle
  have hsettled {k : Nat} (hk : k < bs.length) : unsettled (advance (stored a bs u)) (a + k) = false := by
    have hin : (⟨a, a + bs.length⟩ : Region).has (a + k) = true :=
      (Region.has_iff ..).2 ⟨Nat.le_add_right .., Nat.add_lt_add_left hk a⟩
    rw [unsettled_of_idle hidle']
    simp only [advance_fresh, advance_stale, anyHas_cutAll, hin, Bool.not_true, Bool.and_false, Bool.or_false]
  apply List.ext_getElem?
  intro k
  rw [observeBytes, List.getElem?_map]
  by_cases hk : k < bs.length
  · rw [List.getElem?_range hk, List.getElem?_eq_getElem hk, Option.map_some, observeByte, hsettled hk]
    exact congrArg some (readByte_storeBytes hk)
  · rw [List.getElem?_eq_none (by simpa using hk), List.getElem?_eq_none (by simpa using hk)]
    rfl

/-- While no command runs, a store to backed memory completes and a read of the same bytes returns what
`pack` makes of them (R75 a). -/
theorem host_store_then_read {a l : Nat} {bs : List Byte} {pack : List Byte → List Half} {s : State}
    (hidle : s.busy = false) (hroom : a + bs.length ≤ Config.addrSpace)
    (hbacked : backed s.ram ⟨a, a + bs.length⟩ = true) :
    hostWrite a bs (advance s) = .next (stored a bs (advance s))
      ∧ ∃ u, hostRead a bs.length l pack (advance (stored a bs (advance s))) = .next u
          ∧ lookupKey l u.lists = some (pack bs) := by
  have htouch : touchesRunning (advance s) ⟨a, a + bs.length⟩ = false := by
    rw [touchesRunning, inFlight_advance, inFlight_of_idle hidle]
  refine ⟨hostWrite_completes hroom hbacked htouch, _, hostRead_completes hroom hbacked, ?_⟩
  rw [lookupKey_insertKey_same, observeBytes_stored (u := advance s) hidle]

/-- A store leaves the bytes outside it as they were. -/
theorem storeBytes_unchangedOutside (m : List Host.Cell) (a : Nat) (bs : List Byte) :
    UnchangedOutside ⟨a, a + bs.length⟩ m (storeBytes m a bs) := fun _ hx =>
  readByte_storeBytes_outside ((Region.has_false_iff ..).1 hx)

/-- Settles O54: MW16 stores the unpacked bytes, which MR16 packs again; MW8 and MR8 keep the bytes. -/
theorem hostReadsBackWhatItWrote : Obligations.HostReadsBackWhatItWrote := by
  intro a l s hidle
  refine ⟨fun vs hroom hbacked => ?_, fun bs hroom hbacked => ?_⟩
  · rw [← length_unpackHalves] at hroom hbacked ⊢
    obtain ⟨hwrite, u, hread, hlist⟩ :=
      host_store_then_read (l := l) (pack := packHalves) hidle hroom hbacked
    rw [length_unpackHalves] at hread
    rw [packHalves_unpackHalves] at hlist
    refine ⟨_, u, hwrite, hread, hlist, storeBytes_unchangedOutside _ _ _, fun k v hv => ?_⟩
    obtain ⟨hlow, hhigh⟩ := unpackHalves_getElem? hv
    have hlt := v.isLt
    refine ⟨?_, ?_⟩
    · rw [readByte_storeBytes_of_getElem? hlow, BitVec.toNat_setWidth]
    · rw [Nat.add_assoc, readByte_storeBytes_of_getElem? hhigh, BitVec.toNat_setWidth,
        BitVec.toNat_ushiftRight, Nat.shiftRight_eq_div_pow]
      omega
  · obtain ⟨hwrite, u, hread, hlist⟩ :=
      host_store_then_read (l := l) (pack := packBytes) hidle hroom hbacked
    exact ⟨_, u, hwrite, hread, hlist, storeBytes_unchangedOutside _ _ _,
      fun k b hb => readByte_storeBytes_of_getElem? hb⟩

/-- Settles O55: every byte read lies in the destination of the command in flight, so each is a free value. -/
theorem hostReadsOfARunningDestinationAreFree : Obligations.HostReadsOfARunningDestinationAreFree := by
  intro i a n l s hfly hlo hhi hroom hbacked
  have hfree : observeBytes (advance s) a.toNat n
      = (List.range n).map fun k => Config.freeByte (s.draws + k) := by
    refine List.map_congr_left fun k hk => ?_
    have hk : k < n := List.mem_range.1 hk
    have hin : (dstRange i (advance s)).has (a.toNat + k) = true := by
      rw [dstRange_advance, Region.has_iff]
      omega
    rw [observeByte, unsettled_of_running (s := advance s) hfly hin]
    rfl
  refine ⟨_, hostRead_completes (s := advance s) hroom hbacked, ?_, rfl⟩
  rw [lookupKey_insertKey_same, hfree, packBytes, List.map_map]
  rfl

/-- Settles O56: the read of STATUS returns DONE = 1 and empties `fresh`, and the completion has cut the
destination out of `stale`, so no destination byte is left unsettled. -/
theorem destinationIsVisibleAfterDoneIsRead : Obligations.DestinationIsVisibleAfterDoneIsRead := by
  intro i s tmp hrun
  have hstatus : Reg.ofOffset 0x08 = some .status := by decide
  refine ⟨_, _, exec_running hrun, hostExec_rd tmp _ hstatus, ?_, ?_, fun a k ha => ?_⟩
  · obtain ⟨_, hdone, _⟩ := statusReadsItsFields
      (complete (dstRange i s) (framesDone i s (frameCount i s)) s)
    simp only [observe_eq, lookupKey_insertKey_same, Option.map_some, hdone, complete_done]
  · rw [observe_eq]
    rfl
  · rw [observe_eq, observeByte, unsettled_of_idle rfl]
    simp [anyHas_cutAll, ha]

/-! ## Stores while a command runs (R291 b) -/

/-- A storing statement is one store, after the host has gone on (R104). -/
theorem hostExec_of_storedBytes {st : HostStmt} {b : Nat} {bs : List Byte} (s : State)
    (h : storedBytes st = some (b, bs)) : hostExec st s = hostWrite b bs (advance s) := by
  cases st with
  | mw8 | mw16 => cases h; rfl
  | wr | rd | mr8 | mr16 | bnz | bz | halt => cases h

/-- A store inside backed memory is refused exactly where it meets a range of the command in flight. -/
theorem hostWrite_refused_iff {a : Nat} {bs : List Byte} {u : State}
    (hroom : a + bs.length ≤ Config.addrSpace) (hbacked : backed u.ram ⟨a, a + bs.length⟩ = true) :
    hostWrite a bs u = .refused .hostWriteWhileBusy ↔ touchesRunning u ⟨a, a + bs.length⟩ = true := by
  rw [hostWrite, hostAccessStop_none hroom hbacked]
  cases touchesRunning u ⟨a, a + bs.length⟩ <;> simp

/-- Settles O57: meeting a range is having a byte in common with it. -/
theorem hostStoreToARunningRangeIsRefused : Obligations.HostStoreToARunningRangeIsRefused := by
  intro i st b bs s hfly hst hroom hbacked
  rw [hostExec_of_storedBytes s hst, hostWrite_refused_iff (u := advance s) hroom hbacked, touchesRunning,
    inFlight_advance, hfly]
  simp only [srcRange_advance, dstRange_advance, Bool.or_eq_true, Region.meets_iff, ← exists_or,
    ← and_or_left]
  refine exists_congr fun a => ?_
  rw [Region.has_iff, and_assoc]

end Sys2Proof.Machine
end

section
/-! SUPPORT. The filter of the upsampler as a weighted sum over taps, one axis inside the other (R163-R167):
weights that add up to 2^s reproduce a constant, and the sum of their sizes bounds the accumulator. -/

namespace Sys2Proof.Machine

/-! ## One axis -/

/-- The weighted sum of one axis: each tap's weight times the value at its offset (R165). -/
def tapSum (l : List (Int × Int)) (v : Int → Int) : Int := (l.map fun d => d.2 * v d.1).sum

@[simp] theorem tapSum_nil (v : Int → Int) : tapSum [] v = 0 := rfl

@[simp] theorem tapSum_cons (d : Int × Int) (l : List (Int × Int)) (v : Int → Int) :
    tapSum (d :: l) v = d.2 * v d.1 + tapSum l v := rfl

/-- A factor of every value is a factor of the sum. -/
theorem tapSum_mul_left (l : List (Int × Int)) (k : Int) (v : Int → Int) :
    tapSum l (fun a => k * v a) = k * tapSum l v := by
  induction l with
  | nil => simp
  | cons d l ih =>
    rw [tapSum_cons, tapSum_cons, ih]
    ring

/-- A constant value is multiplied by the sum of the weights. -/
theorem tapSum_const (l : List (Int × Int)) (v : Int) :
    tapSum l (fun _ => v) = (l.map Prod.snd).sum * v := by
  induction l with
  | nil => simp
  | cons d l ih =>
    rw [tapSum_cons, ih, List.map_cons, List.sum_cons]
    ring

/-- Values of size at most `m` sum to at most the weights' sizes times `m`. -/
theorem abs_tapSum_le {l : List (Int × Int)} {v : Int → Int} {m : Int} (hv : ∀ a, |v a| ≤ m) :
    |tapSum l v| ≤ (l.map fun d => |d.2|).sum * m := by
  induction l with
  | nil => simp
  | cons d l ih =>
    calc |tapSum (d :: l) v| ≤ |d.2 * v d.1| + |tapSum l v| := abs_add_le _ _
      _ ≤ |d.2| * m + (l.map fun d => |d.2|).sum * m := by
        rw [abs_mul]
        exact add_le_add (mul_le_mul_of_nonneg_left (hv d.1) (abs_nonneg _)) ih
      _ = ((d :: l).map fun d => |d.2|).sum * m := by rw [List.map_cons, List.sum_cons, add_mul]

/-- Non-negative weights keep the order of values. -/
theorem tapSum_mono {l : List (Int × Int)} {v w : Int → Int} (hl : ∀ d ∈ l, 0 ≤ d.2)
    (hvw : ∀ a, v a ≤ w a) : tapSum l v ≤ tapSum l w := by
  induction l with
  | nil => simp
  | cons d l ih =>
    rw [tapSum_cons, tapSum_cons]
    exact add_le_add (mul_le_mul_of_nonneg_left (hvw d.1) (hl d List.mem_cons_self))
      (ih fun e he => hl e (List.mem_cons_of_mem d he))

/-! ## The tap tables (R163) -/

/-- The weights of every list add up to 2^s. -/
theorem sum_taps (n : Order) (p : Nat) : ((taps n p).map Prod.snd).sum = 2 ^ axisShift n := by
  cases n with
  | nearest => rfl
  | linear | quadratic | cubic => rw [taps]; split_ifs <;> rfl

/-- The sizes of the weights of every list add up to at most 152, order 3's sum. -/
theorem sum_abs_taps_le (n : Order) (p : Nat) : ((taps n p).map fun d => |d.2|).sum ≤ 152 := by
  cases n with
  | nearest => rw [taps]; decide
  | linear | quadratic | cubic => rw [taps]; split_ifs <;> decide

/-- Order 1 has no negative weight. -/
theorem taps_linear_nonneg (p : Nat) : ∀ d ∈ taps .linear p, 0 ≤ d.2 := by
  rw [taps]
  split_ifs <;> decide

/-- Order 1 of values in [0, m] lies in [0, 4 m]. -/
theorem tapSum_linear_mem {p : Nat} {v : Int → Int} {m : Int} (h0 : ∀ a, 0 ≤ v a)
    (hm : ∀ a, v a ≤ m) :
    0 ≤ tapSum (taps .linear p) v ∧ tapSum (taps .linear p) v ≤ 4 * m := by
  have hlow := tapSum_mono (taps_linear_nonneg p) h0
  have hhigh := tapSum_mono (taps_linear_nonneg p) hm
  rw [tapSum_const, sum_taps] at hlow hhigh
  simp only [axisShift] at hlow hhigh
  omega

theorem axisShift_pos {n : Order} (hn : n ≠ .nearest) : 0 < axisShift n := by
  cases n with
  | nearest => exact absurd rfl hn
  | linear | quadratic | cubic => decide

/-- Clamp-to-edge as the three cases of R164. -/
theorem edge_eq (i : Int) {n : Nat} (hn : 0 < n) :
    (edge i n : Int) = if i < 0 then 0 else if (n : Int) ≤ i then (n : Int) - 1 else i := by
  rw [edge, clampInt]
  split_ifs <;> omega

/-- An axis of one sample is read at index 0. -/
theorem edge_one (i : Int) : edge i 1 = 0 := by
  rw [edge, clampInt]
  omega

/-- Settles O27: the tables by evaluation, the edge by its three cases. -/
theorem tapTablesSumToTheirShift : Obligations.TapTablesSumToTheirShift :=
  ⟨rfl, rfl, rfl, rfl, rfl, rfl, rfl, rfl, rfl, fun i _ hn => edge_eq i hn, sum_taps⟩

/-! ## Both axes (R165) -/

/-- The accumulator sums over the rows the sums over the columns. -/
theorem accumulate_eq_tapSum (n : Order) (h w : Nat) (Q : Nat → Nat → Nat → Nat) (y x c : Nat) :
    accumulate n h w Q y x c
      = tapSum (taps n (y % 2)) fun a => tapSum (taps n (x % 2)) fun b =>
          (Q (edge ((y / 2 : Nat) + a) h) (edge ((x / 2 : Nat) + b) w) c : Int) := by
  refine congrArg List.sum (List.map_congr_left fun d _ => ?_)
  rw [← tapSum_mul_left]
  refine congrArg List.sum (List.map_congr_left fun e _ => ?_)
  ring

section
variable {sw : SampleWidth} {h w : Nat} {Q : Nat → Nat → Nat → Nat} {c : Nat}
  (hQ : ∀ i j, Q i j c ≤ maxSample sw)
include hQ

/-- The weights' sizes bound the accumulator by 152 * 152 * MAX. -/
theorem abs_accumulate_le (n : Order) (y x : Nat) :
    |accumulate n h w Q y x c| ≤ 152 * (152 * (maxSample sw : Int)) := by
  have hmax : (0 : Int) ≤ maxSample sw := Int.natCast_nonneg _
  have hsample (i j : Nat) : |(Q i j c : Int)| ≤ maxSample sw := by
    rw [Nat.abs_cast]
    exact_mod_cast hQ i j
  have hcols (i : Nat) : |tapSum (taps n (x % 2)) fun b => (Q i (edge ((x / 2 : Nat) + b) w) c : Int)|
      ≤ 152 * maxSample sw :=
    (abs_tapSum_le fun _ => hsample i _).trans
      (mul_le_mul_of_nonneg_right (sum_abs_taps_le n _) hmax)
  rw [accumulate_eq_tapSum]
  exact (abs_tapSum_le fun _ => hcols _).trans
    (mul_le_mul_of_nonneg_right (sum_abs_taps_le n _) (by positivity))

/-- Order 1 accumulates in [0, 16 MAX], its weights being non-negative. -/
theorem accumulate_linear_mem (y x : Nat) :
    0 ≤ accumulate .linear h w Q y x c ∧ accumulate .linear h w Q y x c ≤ 16 * (maxSample sw : Int) := by
  have hcols (i : Nat) := tapSum_linear_mem (p := x % 2)
    (v := fun b => (Q i (edge ((x / 2 : Nat) + b) w) c : Int)) (m := maxSample sw)
    (fun _ => Int.natCast_nonneg _) (fun _ => by exact_mod_cast hQ i _)
  have hrows := tapSum_linear_mem (p := y % 2) (m := 4 * (maxSample sw : Int))
    (fun a => (hcols (edge ((y / 2 : Nat) + a) h)).1) (fun a => (hcols (edge ((y / 2 : Nat) + a) h)).2)
  rw [accumulate_eq_tapSum]
  omega

end

/-- Settles O29: 152 * 152 * 65535 is below 2^31. -/
theorem accumulatorNeverOverflows : Obligations.AccumulatorNeverOverflows := by
  intro n sw h w Q y x c hQ
  have habs := abs_le.1 (abs_accumulate_le (h := h) (w := w) hQ n y x)
  have hmax := maxSample_le sw
  refine ⟨by omega, by omega, ?_⟩
  rintro rfl
  exact accumulate_linear_mem hQ y x

/-- Settles O30: an upper bound of the samples bounds the output, by the clamp or by the copied sample. -/
theorem upsampleKeepsTheSampleRange : Obligations.UpsampleKeepsTheSampleRange :=
  fun n _ h w _ y x _ hQ => upsample_le n h w y x hQ

/-- Settles O31: the rounded quotient of a value in [0, 16 MAX] is in [0, MAX]. -/
theorem linearNeverNeedsTheClamp : Obligations.LinearNeverNeedsTheClamp := by
  intro sw h w Q y x c hQ
  have hacc := accumulate_linear_mem (h := h) (w := w) hQ y x
  rw [upsample_filtered (by decide), clampInt]
  simp only [axisShift]
  omega

/-- Settles O33: an output row or column inside the raster has its base index inside the plane, and
clamp-to-edge keeps every tap there. -/
theorem upsampleReadsOnlyInsideThePlane : Obligations.UpsampleReadsOnlyInsideThePlane :=
  fun _ _ _ _ _ _ _ _ _ hy hx hQR => upsample_congr (by omega) (by omega) hQR

/-! ## Rounding (R166, R167) -/

/-- A factor 2^s of the accumulator leaves the rounding of one axis. -/
theorem round_two_axes {s : Nat} (hs : 0 < s) (r : Int) :
    (2 ^ s * r + 2 ^ (2 * s - 1)) / 2 ^ (2 * s) = (r + 2 ^ (s - 1)) / 2 ^ s := by
  have hpos : (0 : Int) < 2 ^ s := by positivity
  have hhalf : (2 : Int) ^ (2 * s - 1) = 2 ^ s * 2 ^ (s - 1) := by
    rw [← pow_add]
    congr 1
    omega
  have hfull : (2 : Int) ^ (2 * s) = 2 ^ s * 2 ^ s := by rw [two_mul, pow_add]
  rw [hhalf, hfull, ← mul_add, Int.mul_ediv_mul_of_pos _ _ hpos]

/-- A multiple of 2^s rounds to its quotient: the increment is less than 2^s. -/
theorem round_exact {s : Nat} (hs : 0 < s) (v : Int) : (2 ^ s * v + 2 ^ (s - 1)) / 2 ^ s = v := by
  have hpos : (0 : Int) < 2 ^ s := by positivity
  have hlt : (2 : Int) ^ (s - 1) < 2 ^ s := pow_lt_pow_right₀ (by decide) (by omega)
  rw [Int.mul_add_ediv_left _ _ hpos.ne', Int.ediv_eq_zero_of_lt (by positivity) hlt, add_zero]

/-- An accumulator with a factor 2^s is rounded and clamped by one axis alone. -/
theorem upsample_of_accumulate_eq {n : Order} (hn : n ≠ .nearest) (top : Nat) {h w : Nat}
    {Q : Nat → Nat → Nat → Nat} {y x c : Nat} {r : Int}
    (hacc : accumulate n h w Q y x c = 2 ^ axisShift n * r) :
    upsample n top h w Q y x c
      = (clampInt ((r + 2 ^ (axisShift n - 1)) / 2 ^ axisShift n) 0 top).toNat := by
  rw [upsample_filtered hn, hacc, round_two_axes (axisShift_pos hn)]

/-- Settles O32: each axis multiplies a constant by 2^s, and both rounds give the constant back. -/
theorem uniformPlaneUpsamplesToItself : Obligations.UniformPlaneUpsamplesToItself := by
  intro n top h w v Q y x c hv hQ
  by_cases hn : n = .nearest
  · subst hn
    exact hQ _ _
  · have hacc : accumulate n h w Q y x c = 2 ^ axisShift n * (2 ^ axisShift n * (v : Int)) := by
      simp only [accumulate_eq_tapSum, hQ, tapSum_const, sum_taps]
    rw [upsample_of_accumulate_eq hn top hacc, round_exact (axisShift_pos hn), clampInt]
    omega

/-- Settles O34: along the axis of one sample every tap reads index 0, so that axis multiplies by 2^s. -/
theorem singleRowOrColumnFiltersAlongOneAxis : Obligations.SingleRowOrColumnFiltersAlongOneAxis := by
  intro n top Q y x c hn
  refine ⟨fun w => ?_, fun h => ?_⟩
  · refine upsample_of_accumulate_eq hn top ?_
    simp only [accumulate_eq_tapSum, edge_one, tapSum_const, sum_taps]
    rfl
  · refine upsample_of_accumulate_eq hn top ?_
    simp only [accumulate_eq_tapSum, edge_one, tapSum_const, sum_taps, tapSum_mul_left]
    rfl

end Sys2Proof.Machine
end

section
/-! SUPPORT. The Channel Splitter permutes the frame (R123): its four sub-lattices cover every sample, and
there are as many values as samples. -/

namespace Sys2Proof.Machine

/-- The source indices of SPLIT's values, in the order of its destination. -/
def splitIndices (pat : Pattern) (H W : Nat) : List Nat := (splitFrame pat H W id).map Prod.snd

/-- SPLIT writes the raw samples at its source indices. -/
theorem splitFrame_values (pat : Pattern) (H W : Nat) (raw : Nat → Nat) :
    (splitFrame pat H W raw).map Prod.snd = (splitIndices pat H W).map raw := by
  rw [splitIndices, splitFrame_eq, splitFrame_eq, List.map_map, List.map_map, List.map_map]
  rfl

theorem length_splitIndices (pat : Pattern) {H W : Nat} (hH : H % 2 = 0) (hW : W % 2 = 0) :
    (splitIndices pat H W).length = H * W := by
  obtain ⟨h, rfl⟩ := Nat.dvd_of_mod_eq_zero hH
  obtain ⟨w, rfl⟩ := Nat.dvd_of_mod_eq_zero hW
  rw [splitIndices, splitFrame_eq, List.length_map, List.length_map, List.length_range,
    Nat.mul_div_cancel_left _ Nat.two_pos, Nat.mul_div_cancel_left _ Nat.two_pos]
  ring

/-- Each position of the 2 x 2 block belongs to a sub-lattice (R120). -/
theorem exists_latticeOffset (pat : Pattern) {a b : Nat} (ha : a < 2) (hb : b < 2) :
    ∃ p, p < 4 ∧ latticeOffset pat p = (a, b) := by
  obtain rfl | rfl : a = 0 ∨ a = 1 := by omega
  all_goals obtain rfl | rfl : b = 0 ∨ b = 1 := by omega
  all_goals cases pat <;> decide

/-- Every sample of the frame is the source of a value. -/
theorem mem_splitIndices (pat : Pattern) {H W r : Nat} (hH : H % 2 = 0) (hW : W % 2 = 0) (hr : r < H * W) :
    r ∈ splitIndices pat H W := by
  have hcols : 0 < W := Nat.pos_of_lt_mul_left hr
  have hy : r / W < H := Nat.div_lt_of_lt_mul (by rwa [Nat.mul_comm])
  have hx : r % W < W := Nat.mod_lt _ hcols
  obtain ⟨p, hp, hoffset⟩ := exists_latticeOffset pat (Nat.mod_lt (r / W) Nat.two_pos)
    (Nat.mod_lt (r % W) Nat.two_pos)
  have hindex : lattice pat W id p (r / W / 2) (r % W / 2) = r := by
    rw [lattice, hoffset, Nat.div_add_mod, Nat.div_add_mod]
    exact Nat.div_add_mod' r W
  simp only [splitIndices, splitFrame, List.mem_map, List.mem_flatMap, List.mem_range]
  exact ⟨_, ⟨p, hp, r / W / 2, by omega, r % W / 2, by omega, rfl⟩, hindex⟩

/-- The source indices are the frame's, each once: all of them occur and there are no more. -/
theorem splitIndices_perm (pat : Pattern) {H W : Nat} (hH : H % 2 = 0) (hW : W % 2 = 0) :
    (splitIndices pat H W).Perm (List.range (H * W)) := by
  have hsub : (List.range (H * W)).Subperm (splitIndices pat H W) :=
    List.nodup_range.subperm fun r hr => mem_splitIndices pat hH hW (List.mem_range.1 hr)
  refine (hsub.perm_of_length_le ?_).symm
  rw [length_splitIndices pat hH hW, List.length_range]

/-- Settles O37: SPLIT's source indices are a permutation of the frame's, and the patterns differ in the
offsets of planes 2 and 3 only. -/
theorem splitPermutesTheFrame : Obligations.SplitPermutesTheFrame := by
  refine ⟨fun pat H W raw hH hW => ?_, fun W raw i j => ⟨rfl, rfl, rfl, rfl⟩⟩
  rw [splitFrame_values]
  exact (splitIndices_perm pat hH hW).map raw

end Sys2Proof.Machine
end

section
/-! SUPPORT. What each operation writes (40_splitter.md to 44_demosaic_batch.md): the completion of a running
command with the value of every destination sample, and that value worked out for each operation's indices. -/

namespace Sys2Proof.Machine

/-! ## The completion of any command (R214, R215) -/

/-- A running command leaves in every destination frame the samples of its frame function, unreduced. -/
theorem dstSample_of_running {i : Instr} {s : State} {k q : Nat} (hk : k < frameCount i s)
    (hq : q < samplesOut i (rows s) (cols s)) :
    dstSample i s (framesDone i s (frameCount i s)) k q
      = outValue i (rows s) (cols s) (srcSample i s k) q := by
  have hrange : outValue i (rows s) (cols s) (srcSample i s k) q ≤ maxSample i.fields.sw :=
    outValue_le i _ _ (fun _ => sampleAt_le ..) q
  rw [dstSample_framesDone hk hq, Nat.mod_eq_of_lt (Nat.lt_succ_of_le hrange)]

/-- The shape of every result statement: the completion, the frame, and the destination's samples. -/
theorem exec_running_result {i : Instr} {s : State} (hrun : Running i s) {values : List Host.Cell → Prop}
    (h : values (framesDone i s (frameCount i s))) :
    ∃ m, exec i s = .next (complete (dstRange i s) m s)
      ∧ UnchangedOutside (dstRange i s) s.mem m ∧ values m :=
  ⟨_, exec_running hrun, framesDone_unchangedOutside i s, h⟩

/-! ## Indices of a raster -/

/-- The pixel of an index. -/
theorem rasterIndex_div_mod {W y x : Nat} (hx : x < W) : (y * W + x) / W = y ∧ (y * W + x) % W = x := by
  have hW : 0 < W := by omega
  rw [Nat.mul_comm, Nat.mul_add_div hW, Nat.mul_add_mod, Nat.div_eq_of_lt hx, Nat.mod_eq_of_lt hx]
  exact ⟨Nat.add_zero y, rfl⟩

/-- The index of a channel of a pixel is inside the plane (R69). -/
theorem channelIndex_lt {H W y x c : Nat} (hy : y < H) (hx : x < W) (hc : c < 3) :
    (y * W + x) * 3 + c < 3 * H * W := by
  have hpixel := rasterIndex_lt hy hx
  rw [Nat.mul_assoc]
  omega

/-- The pixel and channel of an index. -/
theorem channelIndex_div_mod {W y x c : Nat} (hx : x < W) (hc : c < 3) :
    ((y * W + x) * 3 + c) / 3 / W = y ∧ ((y * W + x) * 3 + c) / 3 % W = x
      ∧ ((y * W + x) * 3 + c) % 3 = c := by
  have hdiv : ((y * W + x) * 3 + c) / 3 = y * W + x := by omega
  rw [hdiv]
  obtain ⟨hrow, hcol⟩ := rasterIndex_div_mod (y := y) hx
  exact ⟨hrow, hcol, by omega⟩

/-! ## SPLIT (R120-R122) -/

/-- Plane p of a running SPLIT's destination frame is sub-lattice p of its source frame. -/
theorem dstSample_split {f : CmdFields} {s : State} {k p i j : Nat} (hk : k < frameCount (.split f) s)
    (hp : p < 4) (hi : i < rows s / 2) (hj : j < cols s / 2) :
    dstSample (.split f) s (framesDone (.split f) s (frameCount (.split f) s)) k
        (p * (rows s / 2) * (cols s / 2) + i * (cols s / 2) + j)
      = lattice f.pat (cols s) (srcSample (.split f) s k) p i j := by
  have hin := rasterIndex_lt hi hj
  have hq : p * (rows s / 2) * (cols s / 2) + (i * (cols s / 2) + j)
      < samplesOut (.split f) (rows s) (cols s) := by
    rw [samplesOut, Nat.mul_assoc, Nat.mul_assoc]
    calc p * (rows s / 2 * (cols s / 2)) + (i * (cols s / 2) + j)
        < p * (rows s / 2 * (cols s / 2)) + rows s / 2 * (cols s / 2) := Nat.add_lt_add_left hin _
      _ = (p + 1) * (rows s / 2 * (cols s / 2)) := (Nat.succ_mul _ _).symm
      _ ≤ 4 * (rows s / 2 * (cols s / 2)) := Nat.mul_le_mul_right _ hp
  rw [Nat.add_assoc, dstSample_of_running hk hq, outValue_split_plane f _ p hi hj]

/-- Settles O21: destination plane p is sub-lattice p, for p = 0 to 3, and the pattern fixes the offsets
of planes 2 and 3. -/
theorem splitWritesTheFourSubLattices : Obligations.SplitWritesTheFourSubLattices := by
  intro f s hrun
  refine exec_running_result hrun fun k i j hk hi hj => ⟨?_, ?_, ?_, ?_⟩
  · have hg1 := dstSample_split hk (p := 0) (by decide) hi hj
    rw [Nat.zero_mul, Nat.zero_mul, Nat.zero_add] at hg1
    exact hg1
  · have hg2 := dstSample_split hk (p := 1) (by decide) hi hj
    rw [Nat.one_mul] at hg2
    exact hg2
  · rw [dstSample_split hk (by decide) hi hj]
    cases f.pat <;> rfl
  · rw [dstSample_split hk (by decide) hi hj]
    cases f.pat <;> rfl

/-! ## GMERGE (R141, R143) -/

/-- Settles O22: destination sample q merges samples q of the two source planes. -/
theorem gmergeWritesTheRoundedMean : Obligations.GmergeWritesTheRoundedMean := by
  intro f s hrun
  refine exec_running_result hrun fun k i j hk hi hj => ?_
  rw [dstSample_of_running hk (rasterIndex_lt hi hj), outValue,
    ← Nat.add_assoc (rows s / 2 * (cols s / 2))]
  cases f.rnd <;> rfl

/-! ## UPSAMPLE (R160-R168) -/

theorem effectiveOrder_of_zero {alg : BitVec 3} (h : alg.toNat = 0) : effectiveOrder alg = .nearest := by
  rw [BitVec.eq_of_toNat_eq (show alg.toNat = (0#3).toNat from h)]
  rfl

theorem effectiveOrder_of_one {alg : BitVec 3} (h : alg.toNat = 1) : effectiveOrder alg = .linear := by
  rw [BitVec.eq_of_toNat_eq (show alg.toNat = (1#3).toNat from h)]
  rfl

theorem effectiveOrder_of_two {alg : BitVec 3} (h : alg.toNat = 2) : effectiveOrder alg = .quadratic := by
  rw [BitVec.eq_of_toNat_eq (show alg.toNat = (2#3).toNat from h)]
  rfl

theorem effectiveOrder_of_three {alg : BitVec 3} (h : alg.toNat = 3) : effectiveOrder alg = .cubic := by
  rw [BitVec.eq_of_toNat_eq (show alg.toNat = (3#3).toNat from h)]
  rfl

/-- Settles O23: a channel of a pixel is `upsample` there; the orders go by ALG's value, and a filtered sample
is the rounded and clamped accumulator. -/
theorem upsampleWritesTheFilteredPlane : Obligations.UpsampleWritesTheFilteredPlane := by
  refine ⟨fun f s hrun => exec_running_result hrun fun k y x c hk hy hx hc => ?_,
    fun alg => ⟨effectiveOrder_of_one, effectiveOrder_of_two, effectiveOrder_of_three, fun h =>
      h.elim effectiveOrder_of_zero effectiveOrder_of_four_le⟩,
    fun n top h w Q y x c hn => upsample_filtered hn top h w Q y x c⟩
  obtain ⟨hrow, hcol, hchannel⟩ := channelIndex_div_mod (y := y) hx hc
  rw [dstSample_of_running hk (channelIndex_lt hy hx hc), outValue, hrow, hcol, hchannel]

/-! ## LUMA (R191, R193, R194) -/

/-- Destination sample q of a running LUMA is its pixel q. -/
theorem dstSample_luma {f : CmdFields} {s : State} {k q : Nat} (hk : k < frameCount (.luma f) s)
    (hq : q < rows s * cols s) :
    dstSample (.luma f) s (framesDone (.luma f) s (frameCount (.luma f) s)) k q
      = lumaPixel (channels f.lch) (srcSample (.luma f) s k) (q * channels f.lch) := by
  rw [dstSample_of_running hk hq, outValue, Nat.div_add_mod']

/-- Settles O24: the pixel is copied for one channel, and its first three channels weighed otherwise. -/
theorem lumaWritesTheLuminance : Obligations.LumaWritesTheLuminance := by
  intro f s hrun
  refine exec_running_result hrun fun k y x hk hy hx => ⟨fun hl => ?_, fun hl => ?_, fun hl => ?_⟩
  all_goals rw [dstSample_luma hk (rasterIndex_lt hy hx), hl]
  · rw [channels, lumaPixel, if_pos rfl, Nat.mul_one]
  · rfl
  · rfl

/-! ## DEMOSAIC (R210-R212) -/

/-- The gray output is the luminance of the plane U (R212). -/
theorem outValue_demosaic_gray {f : CmdFields} (hout : f.out = .gray) (H W : Nat) (raw : Nat → Nat)
    (q : Nat) :
    outValue (.demosaic f) H W raw q
      = luma (demosaicPlane f H W raw (q / W) (q % W) 0) (demosaicPlane f H W raw (q / W) (q % W) 1)
          (demosaicPlane f H W raw (q / W) (q % W) 2) := by
  simp only [outValue, hout]

/-- Channel 1 of the assembled plane merges the green sub-lattices (R210). -/
theorem assemble_green (pat : Pattern) (rnd : Rounding) (W : Nat) (raw : Nat → Nat) (i j : Nat) :
    assemble pat rnd W raw i j 1
      = merge rnd (raw ((2 * i) * W + 2 * j)) (raw ((2 * i + 1) * W + (2 * j + 1))) := rfl

/-- Settles O25: P is the assembled plane and U the upsampled one; both outputs are made of U. -/
theorem demosaicWritesTheReconstructedImage : Obligations.DemosaicWritesTheReconstructedImage := by
  intro f s hrun
  refine exec_running_result hrun fun k hk =>
    ⟨assemble f.pat f.rnd (cols s) (srcSample (.demosaic f) s k),
      demosaicPlane f (rows s) (cols s) (srcSample (.demosaic f) s k),
      fun i j => ⟨?_, ?_, ?_⟩, fun y x c => rfl,
      fun y x hy hx => ⟨fun hout c hc => ?_, fun hout => ?_⟩⟩
  · cases f.pat <;> rfl
  · rw [assemble_green]
    cases f.rnd <;> rfl
  · cases f.pat <;> rfl
  · have hq : (y * cols s + x) * 3 + c < samplesOut (.demosaic f) (rows s) (cols s) := by
      rw [samplesOut, if_pos hout]
      exact channelIndex_lt hy hx hc
    obtain ⟨hrow, hcol, hchannel⟩ := channelIndex_div_mod (y := y) hx hc
    rw [dstSample_of_running hk hq, outValue_demosaic_color hout, hrow, hcol, hchannel]
  · have hq : y * cols s + x < samplesOut (.demosaic f) (rows s) (cols s) := by
      rw [samplesOut, hout, if_neg (by decide)]
      exact rasterIndex_lt hy hx
    obtain ⟨hrow, hcol⟩ := rasterIndex_div_mod (y := y) hx
    rw [dstSample_of_running hk hq, outValue_demosaic_gray hout, hrow, hcol]
    rfl

/-! ## The completion step and what is written (R72, R215) -/

/-- Settles O26: the completion of R215, whose irq is IRQ_EN because DONE is set. -/
theorem completionSetsDoneAndKeepsTheWarning : Obligations.CompletionSetsDoneAndKeepsTheWarning :=
  fun _ _ hrun => ⟨_, exec_running hrun, rfl, rfl, rfl, rfl, rfl, rfl, irq_of_done rfl⟩

/-- Settles O39: the frames cover the destination range, and the source has no byte of it. -/
theorem engineWritesExactlyTheDestination : Obligations.EngineWritesExactlyTheDestination := by
  intro i s hrun
  have hkept := framesDone_unchangedOutside i s
  refine ⟨_, exec_running hrun, hkept, fun a ha => ?_,
    fun a ha => hkept a (source_outside_destination hrun.valid ha)⟩
  rw [Region.has_iff] at ha
  obtain ⟨hlo, hhi⟩ := ha
  exact listed_framesDone hlo hhi

end Sys2Proof.Machine
end

section
/-! SUPPORT. The destination as a function of the source (R67, R214, R216): a command's output samples depend
on its source samples only, its bytes on its samples, and frame k of a batch is a command of one frame. -/

namespace Sys2Proof.Machine

/-! ## Output samples from source samples -/

/-- The pixel of an index below `H * W` is in the raster. -/
theorem rasterIndex_inside {H W q : Nat} (hq : q < H * W) : q / W < H ∧ q % W < W :=
  ⟨Nat.div_lt_of_lt_mul (by rwa [Nat.mul_comm]), Nat.mod_lt _ (Nat.pos_of_lt_mul_left hq)⟩

/-- The assembled plane reads the raw frame only. -/
theorem assemble_congr {pat : Pattern} {rnd : Rounding} {H W : Nat} {raw raw' : Nat → Nat}
    (hraw : ∀ q, q < H * W → raw' q = raw q) {i j : Nat} (c : Nat) (hi : i < H / 2) (hj : j < W / 2) :
    assemble pat rnd W raw' i j c = assemble pat rnd W raw i j c := by
  simp only [assemble, lattice_congr hraw hi hj]

/-- The plane U at a pixel of an even raster reads the raw frame only. -/
theorem demosaicPlane_congr (f : CmdFields) {H W : Nat} {raw raw' : Nat → Nat} (hH : H % 2 = 0)
    (hW : W % 2 = 0) (hraw : ∀ q, q < H * W → raw' q = raw q) {p : Nat} (hp : p < H * W) (c : Nat) :
    demosaicPlane f H W raw' (p / W) (p % W) c = demosaicPlane f H W raw (p / W) (p % W) c := by
  obtain ⟨hy, hx⟩ := rasterIndex_inside hp
  exact upsample_congr (by omega) (by omega) fun i j hi hj => assemble_congr hraw c hi hj

/-- A pixel of C channels, C at least 1, is read inside the frame: C is 1 or the pixel has three channels. -/
theorem lumaPixel_congr {C n p : Nat} {src src' : Nat → Nat} (hC : C = 1 ∨ C = 3 ∨ C = 4)
    (hsrc : ∀ q, q < C * n → src' q = src q) (hp : p < n) :
    lumaPixel C src' (p * C) = lumaPixel C src (p * C) := by
  have hlast : C * (p + 1) ≤ C * n := Nat.mul_le_mul_left C hp
  have hindex : C * (p + 1) = p * C + C := by ring
  rw [lumaPixel, lumaPixel]
  split_ifs with h
  · exact hsrc _ (by omega)
  · rw [hsrc _ (by omega), hsrc _ (by omega), hsrc _ (by omega)]

/-- A command of a legal shape makes its destination samples of its source samples alone (R216). -/
theorem outValue_congr {i : Instr} {s : State} (hshape : shapeViolation i s = false) {src src' : Nat → Nat}
    (hsrc : ∀ q, q < samplesIn i (rows s) (cols s) → src' q = src q) {q : Nat}
    (hq : q < samplesOut i (rows s) (cols s)) :
    outValue i (rows s) (cols s) src' q = outValue i (rows s) (cols s) src q := by
  cases i with
  | demosaic f =>
    obtain ⟨hH, hW⟩ := even_of_shape hshape (by simp [Instr.opcode])
    have hplane {p : Nat} (hp : p < rows s * cols s) (c : Nat) := demosaicPlane_congr f hH hW hsrc hp c
    cases hout : f.out with
    | color =>
      rw [samplesOut, if_pos hout, Nat.mul_assoc] at hq
      rw [outValue_demosaic_color hout, outValue_demosaic_color hout]
      exact hplane (by omega) _
    | gray =>
      rw [samplesOut, hout, if_neg (by decide)] at hq
      rw [outValue_demosaic_gray hout, outValue_demosaic_gray hout, hplane hq, hplane hq, hplane hq]
  | split f =>
    rw [samplesOut, Nat.mul_assoc] at hq
    have hpos : 0 < rows s / 2 * (cols s / 2) := Nat.pos_of_lt_mul_left hq
    obtain ⟨hi, hj⟩ := rasterIndex_inside (Nat.mod_lt q hpos)
    exact lattice_congr hsrc hi hj
  | gmerge f =>
    rw [samplesOut] at hq
    rw [samplesIn, Nat.mul_assoc] at hsrc
    rw [outValue, outValue, hsrc _ (by omega), hsrc _ (by omega)]
  | upsample f =>
    obtain ⟨hH, hW⟩ := even_of_shape hshape (by simp [Instr.opcode])
    rw [samplesOut, Nat.mul_assoc] at hq
    obtain ⟨hy, hx⟩ := rasterIndex_inside (show q / 3 < rows s * cols s by omega)
    rw [outValue, outValue]
    exact upsample_congr (by omega) (by omega) fun i j hi hj =>
      hsrc _ (channelIndex_lt hi hj (Nat.mod_lt q (by decide)))
  | luma f =>
    have hC : channels f.lch = 1 ∨ channels f.lch = 3 ∨ channels f.lch = 4 := by
      rcases layout_of_shape hshape with h | h | h <;> rw [h] <;> decide
    rw [samplesIn, Nat.mul_assoc] at hsrc
    rw [outValue, outValue, Nat.div_add_mod']
    exact lumaPixel_congr hC hsrc hq

/-! ## Samples and bytes (R61, R62) -/

/-- Equal bytes at two addresses are equal values. -/
theorem memRead_eq_of_bytes {m m' : List Host.Cell} {a a' n : Nat}
    (h : ∀ b, b < n → readByte m' (a' + b) = readByte m (a + b)) : memRead m' a' n = memRead m a n := by
  induction n generalizing a a' with
  | zero => rfl
  | succ n ih =>
    have htail : memRead m' (a' + 1) n = memRead m (a + 1) n := ih fun b hb => by
      rw [Nat.add_assoc, Nat.add_assoc, Nat.add_comm 1 b]
      exact h (b + 1) (by omega)
    have hhead : readByte m' a' = readByte m a := h 0 (by omega)
    rw [memRead, memRead, hhead, htail]

/-- Equal values at two addresses have equal bytes. -/
theorem bytes_of_memRead_eq {m m' : List Host.Cell} {a a' n : Nat} (h : memRead m' a' n = memRead m a n)
    {b : Nat} (hb : b < n) : readByte m' (a' + b) = readByte m (a + b) := by
  induction n generalizing a a' b with
  | zero => omega
  | succ n ih =>
    have hlt := (readByte m a).isLt
    have hlt' := (readByte m' a').isLt
    rw [memRead, memRead] at h
    cases b with
    | zero => exact BitVec.eq_of_toNat_eq (by simp only [Nat.add_zero]; omega)
    | succ b =>
      rw [Nat.add_comm b 1, ← Nat.add_assoc, ← Nat.add_assoc]
      exact ih (by omega) (by omega)

/-- An offset into `N` frames of `S` samples of `B` bytes is a frame, a sample of it and a byte of that. -/
theorem frame_sample_byte {N S B q : Nat} (hq : q < N * (S * B)) :
    ∃ k p b, k < N ∧ p < S ∧ b < B ∧ q = k * (S * B) + p * B + b := by
  have hframe : 0 < S * B := Nat.pos_of_lt_mul_left hq
  have hbyte : 0 < B := Nat.pos_of_mul_pos_left hframe
  refine ⟨q / (S * B), q % (S * B) / B, q % (S * B) % B, Nat.div_lt_of_lt_mul (by rwa [Nat.mul_comm]),
    Nat.div_lt_of_lt_mul (by rw [Nat.mul_comm B]; exact Nat.mod_lt q hframe), Nat.mod_lt _ hbyte, ?_⟩
  rw [Nat.add_assoc, Nat.div_add_mod', Nat.div_add_mod']

/-- The byte of a sample of one of `N` frames is one of their bytes. -/
theorem frame_sample_byte_lt {N S B k p b : Nat} (hk : k < N) (hp : p < S) (hb : b < B) :
    k * (S * B) + p * B + b < N * (S * B) := by
  have hsample : p * B + b < S * B := rasterIndex_lt hp hb
  rw [Nat.add_assoc]
  exact rasterIndex_lt hk hsample

/-- Source samples agree where the bytes of the source ranges do. -/
theorem srcSample_eq_of_bytes {i : Instr} {s s' : State} (hH : rows s' = rows s) (hW : cols s' = cols s)
    (hbytes : ∀ q, s.srcBase.toNat + q < (srcRange i s).hi →
      readByte s'.mem (s'.srcBase.toNat + q) = readByte s.mem (s.srcBase.toNat + q))
    {k p : Nat} (hk : k < frameCount i s) (hp : p < samplesIn i (rows s) (cols s)) :
    srcSample i s' k p = srcSample i s k p := by
  refine memRead_eq_of_bytes fun b hb => ?_
  have hlt := frame_sample_byte_lt hk hp hb
  have hframe : frameBytesIn i s' = frameBytesIn i s := by rw [frameBytesIn, frameBytesIn, hH, hW]
  rw [srcFrame, srcFrame, hframe, Nat.add_assoc, Nat.add_assoc, Nat.add_assoc, Nat.add_assoc,
    ← Nat.add_assoc (k * frameBytesIn i s)]
  exact hbytes _ (Nat.add_lt_add_left hlt _)

/-- Settles O40: equal source bytes are equal source samples, which make equal destination samples, which are
equal destination bytes. -/
theorem destinationDependsOnlyOnTheSource : Obligations.DestinationDependsOnlyOnTheSource := by
  intro i s s' hrun hrun' hheight hwidth hN hbytes
  have hH : rows s' = rows s := congrArg BitVec.toNat hheight
  have hW : cols s' = cols s := congrArg BitVec.toNat hwidth
  have hframe : frameBytesOut i s' = frameBytesOut i s := by rw [frameBytesOut, frameBytesOut, hH, hW]
  obtain ⟨_, hshape, _⟩ := (validateCommand_none_iff i s).1 hrun.valid
  refine ⟨_, _, exec_running hrun, exec_running hrun', fun q hq => ?_⟩
  obtain ⟨k, p, b, hk, hp, hb, rfl⟩ := frame_sample_byte (Nat.lt_of_add_lt_add_left hq)
  have hsample : dstSample i s' (framesDone i s' (frameCount i s')) k p
      = dstSample i s (framesDone i s (frameCount i s)) k p := by
    rw [dstSample_of_running (hN ▸ hk) (by rwa [hH, hW]), dstSample_of_running hk hp, hH, hW]
    exact outValue_congr hshape (fun _ hr => srcSample_eq_of_bytes hH hW hbytes hk hr) hp
  have hbyte := bytes_of_memRead_eq hsample hb
  rw [dstFrame, dstFrame, hframe, Nat.add_assoc, Nat.add_assoc, Nat.add_assoc, Nat.add_assoc,
    ← Nat.add_assoc (k * frameBytesOut i s)] at hbyte
  exact hbyte

/-! ## Frame k alone (R67, R214) -/

/-- The state whose bases are the slots of frame k. -/
def frameState (i : Instr) (s : State) (k : Nat) : State :=
  { s with srcBase := BitVec.ofNat 32 (srcFrame i s k), dstBase := BitVec.ofNat 32 (dstFrame i s k) }

theorem singleFrame_sw (i : Instr) : (singleFrame i).fields.sw = i.fields.sw := by cases i <;> rfl

theorem frameCount_singleFrame (i : Instr) (s : State) : frameCount (singleFrame i) s = 1 := by
  cases i <;> rfl

theorem samplesIn_singleFrame (i : Instr) : samplesIn (singleFrame i) = samplesIn i := by cases i <;> rfl

theorem samplesOut_singleFrame (i : Instr) : samplesOut (singleFrame i) = samplesOut i := by cases i <;> rfl

theorem shapeViolation_singleFrame (i : Instr) : shapeViolation (singleFrame i) = shapeViolation i := by
  cases i <;> rfl

theorem outValue_singleFrame (i : Instr) : outValue (singleFrame i) = outValue i := by cases i <;> rfl

theorem shapeViolation_frameState (i : Instr) (s : State) (k : Nat) :
    shapeViolation i (frameState i s k) = shapeViolation i s := by cases i <;> rfl

/-- A region inside a backed one is backed. -/
theorem backed_mono {ram : List Region} {r q : Region} (h : backed ram r = true) (hlo : r.lo ≤ q.lo)
    (hhi : q.hi ≤ r.hi) : backed ram q = true := by
  rw [backed_iff] at h ⊢
  intro a ha
  rw [Region.has_iff] at ha
  exact h a ((Region.has_iff r a).2 (by omega))

/-- Regions inside two that do not overlap do not overlap. -/
theorem overlaps_mono {r q r' q' : Region} (h : r.overlaps q = false) (hr : r.lo ≤ r'.lo ∧ r'.hi ≤ r.hi)
    (hq : q.lo ≤ q'.lo ∧ q'.hi ≤ q.hi) : r'.overlaps q' = false := by
  rw [← Bool.not_eq_true, Region.overlaps_iff] at h ⊢
  omega

/-- The slot of frame k lies in the range of all frames. -/
theorem frame_inside {base n F k : Nat} (hk : k < n) :
    base ≤ base + k * F ∧ base + k * F + F ≤ base + n * F := by
  have hle : (k + 1) * F ≤ n * F := Nat.mul_le_mul_right F hk
  rw [Nat.succ_mul] at hle
  omega

/-- The slots of 16-bit frames have the parity of their base. -/
theorem slot_parity (base k S : Nat) : (base + k * (S * 2)) % 2 = base % 2 := by
  rw [← Nat.mul_assoc, Nat.add_mul_mod_self_right]

section
variable {i : Instr} {s : State} {k : Nat} (hrun : Running i s) (hk : k < frameCount i s)
include hrun hk

/-- The slots of a running command's frames have their bases below 2^32 (R248). -/
theorem frame_bases_lt : srcFrame i s k < 2 ^ 32 ∧ dstFrame i s k < 2 ^ 32 := by
  obtain ⟨⟨hH, hW, _⟩, hshape, _, ⟨hsrc, hdst⟩, _⟩ := (validateCommand_none_iff i s).1 hrun.valid
  obtain ⟨hin, hout⟩ := samples_pos hH hW hshape
  have hinBytes : 0 < frameBytesIn i s := Nat.mul_pos hin (bytesPer_pos _)
  have houtBytes : 0 < frameBytesOut i s := Nat.mul_pos hout (bytesPer_pos _)
  obtain ⟨_, hsrcSlot⟩ := frame_inside (base := s.srcBase.toNat) (F := frameBytesIn i s) hk
  obtain ⟨_, hdstSlot⟩ := frame_inside (base := s.dstBase.toNat) (F := frameBytesOut i s) hk
  rw [srcRange] at hsrc
  rw [dstRange] at hdst
  simp only [Config.addrSpace] at hsrc hdst
  rw [srcFrame, dstFrame]
  omega

/-- The bases of frame k's state are its slots, unreduced. -/
theorem frameState_bases :
    (frameState i s k).srcBase.toNat = srcFrame i s k
      ∧ (frameState i s k).dstBase.toNat = dstFrame i s k := by
  obtain ⟨hsrc, hdst⟩ := frame_bases_lt hrun hk
  rw [frameState, BitVec.toNat_ofNat, BitVec.toNat_ofNat, Nat.mod_eq_of_lt hsrc, Nat.mod_eq_of_lt hdst]
  exact ⟨rfl, rfl⟩

theorem srcRange_singleFrame :
    srcRange (singleFrame i) (frameState i s k)
      = ⟨srcFrame i s k, srcFrame i s k + frameBytesIn i s⟩ := by
  rw [srcRange, (frameState_bases hrun hk).1, frameCount_singleFrame, Nat.one_mul, frameBytesIn,
    samplesIn_singleFrame, singleFrame_sw]
  rfl

theorem dstRange_singleFrame :
    dstRange (singleFrame i) (frameState i s k)
      = ⟨dstFrame i s k, dstFrame i s k + frameBytesOut i s⟩ := by
  rw [dstRange, (frameState_bases hrun hk).2, frameCount_singleFrame, Nat.one_mul, frameBytesOut,
    samplesOut_singleFrame, singleFrame_sw]
  rfl

/-- The command for frame k alone runs in the state of frame k's slots. -/
theorem running_singleFrame : Running (singleFrame i) (frameState i s k) := by
  have ⟨hbusy, hvalid, hsrcBacked, hdstBacked⟩ := hrun
  obtain ⟨⟨hH, hW, _⟩, hshape, halign, ⟨hsrc, hdst⟩, hdisjoint⟩ :=
    (validateCommand_none_iff i s).1 hvalid
  obtain ⟨hsrcLo, hsrcHi⟩ := frame_inside (base := s.srcBase.toNat) (F := frameBytesIn i s) hk
  obtain ⟨hdstLo, hdstHi⟩ := frame_inside (base := s.dstBase.toNat) (F := frameBytesOut i s) hk
  have hsrcRange := srcRange_singleFrame hrun hk
  have hdstRange := dstRange_singleFrame hrun hk
  refine ⟨hbusy, (validateCommand_none_iff _ _).2 ⟨⟨hH, hW, ?_⟩, ?_, ?_, ⟨?_, ?_⟩, ?_⟩, ?_, ?_⟩
  · rw [frameCount_singleFrame]
    decide
  · rw [shapeViolation_singleFrame, shapeViolation_frameState, hshape]
  · rintro ⟨hsw, hodd⟩
    rw [singleFrame_sw] at hsw
    obtain ⟨hsrcBase, hdstBase⟩ := frameState_bases hrun hk
    have hbases : ¬ (s.srcBase.toNat % 2 = 1 ∨ s.dstBase.toNat % 2 = 1) := fun h => halign ⟨hsw, h⟩
    rw [hsrcBase, hdstBase, srcFrame, dstFrame, frameBytesIn, frameBytesOut, hsw, bytesPer,
      slot_parity, slot_parity] at hodd
    exact hbases hodd
  · rw [hsrcRange]
    exact hsrcHi.trans hsrc
  · rw [hdstRange]
    exact hdstHi.trans hdst
  · rw [hsrcRange, hdstRange]
    exact overlaps_mono hdisjoint ⟨hsrcLo, hsrcHi⟩ ⟨hdstLo, hdstHi⟩
  · rw [hsrcRange]
    exact backed_mono hsrcBacked hsrcLo hsrcHi
  · rw [hdstRange]
    exact backed_mono hdstBacked hdstLo hdstHi

end

/-- Settles O41: the command for frame k alone runs, and makes the same values of the same source samples. -/
theorem batchFrameMatchesTheSingleFrame : Obligations.BatchFrameMatchesTheSingleFrame := by
  intro i s k hrun hk
  have hrun₁ := running_singleFrame hrun hk
  have hsrc : srcSample (singleFrame i) (frameState i s k) 0 = srcSample i s k := by
    have hrange := congrArg Region.lo (srcRange_singleFrame hrun hk)
    funext q
    rw [srcSample, srcSample, srcFrame, Nat.zero_mul, Nat.add_zero, singleFrame_sw]
    exact congrArg (fun base => sampleAt s.mem i.fields.sw base q) hrange
  refine ⟨_, _, frameState i s k, rfl, exec_running hrun, exec_running hrun₁, fun q hq => ?_⟩
  have hone : 0 < frameCount (singleFrame i) (frameState i s k) := by
    rw [frameCount_singleFrame]
    decide
  rw [dstSample_of_running hk hq, dstSample_of_running hone (by rw [samplesOut_singleFrame]; exact hq), hsrc,
    outValue_singleFrame]
  rfl

end Sys2Proof.Machine
end
